-- ==== Sys2Proof/Word.lean ====
section
/-! DEFINITION. The widths of the machine's values (00_scope.md R5, R7, R8; 30_encoding.md R71). Every value is unsigned. -/

namespace Sys2Proof

/-- An 8-bit value: a general register, a timer, a byte of memory (R5: XLEN = 8). -/
abbrev Byte := BitVec 8

/-- A 16-bit value: an opcode, I, PC, a call-stack entry, the KEYS input (R5, R30). -/
abbrev Word := BitVec 16

/-- A 4-bit field of an opcode: a register number x or y, or the row count n (R71). -/
abbrev Nibble := BitVec 4

/-- The 12-bit address field nnn of an opcode (R71). -/
abbrev Addr12 := BitVec 12

end Sys2Proof
end

