-- ==== Sys2Proof/Config.lean ====
section
/-! DEFINITION. What a build of the core fixes (00_scope.md R5, R6) and the free values the spec leaves open
(R6: RND, KEY_SELECT). A free value has no body: nothing can be proved about which value it is. -/

namespace Sys2Proof

/-- MEM_SIZE (R5): valid addresses are 0 to 4095. -/
def Config.memSize : Nat := 4096

/-- PROG_BASE (R5): the reset value of PC and the load address of the program. -/
def Config.progBase : Nat := 0x200

/-- PROG_MAX (R5): the largest program in bytes. -/
def Config.progMax : Nat := 3584

/-- FONT_BASE (R5): the load address of the font table. -/
def Config.fontBase : Nat := 0x000

/-- IPF (R5): single steps per `cycle`. -/
def Config.stepsPerCycle : Nat := 10

/-- What an address that memory does not list reads as: the content `initialize` gives every byte (10_state.md R40). -/
def Config.unlistedByte : Byte := 0

/-- The default of the open parameter STACK_LIMIT (R6): none, the call stack is unbounded. -/
def Config.stackLimitDefault : Option Nat := none

/-- FREE VALUE (log entry 3). The byte RND gives at the k-th draw (R6, 10_state.md R31): no law holds of it. -/
opaque Config.rnd : Nat → Byte

/-- FREE VALUE (log entry 4). KEY_SELECT (R6): at the k-th draw, with the given KEYS, which of the pressed keys is
reported, as an index that `chooseKey` reduces to the number of pressed keys. -/
opaque Config.keySelect : Nat → Word → Nat

/-- The default of the parameter FONT, glyphs 0 to 7 (70_reset_and_hazards.md R231; K1: general knowledge, log entry 8). -/
def Config.fontLow : List Byte :=
  [0xF0, 0x90, 0x90, 0x90, 0xF0,
   0x20, 0x60, 0x20, 0x20, 0x70,
   0xF0, 0x10, 0xF0, 0x80, 0xF0,
   0xF0, 0x10, 0xF0, 0x10, 0xF0,
   0x90, 0x90, 0xF0, 0x10, 0x10,
   0xF0, 0x80, 0xF0, 0x10, 0xF0,
   0xF0, 0x80, 0xF0, 0x90, 0xF0,
   0xF0, 0x10, 0x20, 0x40, 0x40]

/-- The default of the parameter FONT, glyphs 8 to F (R231). -/
def Config.fontHigh : List Byte :=
  [0xF0, 0x90, 0xF0, 0x90, 0xF0,
   0xF0, 0x90, 0xF0, 0x10, 0xF0,
   0xF0, 0x90, 0xF0, 0x90, 0x90,
   0xE0, 0x90, 0xE0, 0x90, 0xE0,
   0xF0, 0x80, 0x80, 0x80, 0xF0,
   0xE0, 0x90, 0x90, 0x90, 0xE0,
   0xF0, 0x80, 0xF0, 0x80, 0xF0,
   0xF0, 0x80, 0xF0, 0x80, 0x80]

/-- The default of the parameter FONT, 80 bytes (R231). No rule of the core depends on the values. -/
def Config.fontDefault : Vector Byte 80 := ⟨(Config.fontLow ++ Config.fontHigh).toArray, by decide⟩

end Sys2Proof
end

