-- ==== Sys2Proof/Machine/State.lean ====
section
/-! DEFINITION. The state of the core (10_state.md), its inputs, and the reasons an operation can stop. -/

namespace Sys2Proof.Machine

/-- The memory array MEM (10_state.md R35): (address, byte) pairs, addresses strictly rising, no byte equal to what an
unlisted address reads as. -/
abbrev Memory := List Host.Cell

/-- A display coordinate (cx, cy): column from the left, row from the top (10_state.md R34). -/
abbrev Pixel := Nat × Nat

/-- The display buffer DISP (R34): the set of lit cells, as a list of coordinates in strictly rising order. -/
abbrev Display := List Pixel

/-- The execution state RUN (10_state.md R28). -/
inductive RunState where
  | playing
  | paused
  deriving DecidableEq, Repr

/-- The faults of the core with the information each records (60_exceptions.md R200). A fault is LATCHED in the state
(R208): the step that raises it answers a next state whose `fault` field holds it, and the core then stays as it is
until `initialize`. No step ends in `Outcome.fault` (log entry 1). -/
inductive Fault where
  /-- Code 1. Raised by 00EE on an empty STACK (R201); records PC0. Safe: nothing runs after it. -/
  | stackUnderflow (pc0 : Word)
  /-- Code 2. Raised by the fetch of a step with PC > 0xFFE (R202); records PC. Safe. -/
  | fetchOutOfBounds (pc : Word)
  /-- Code 3. Raised by Dxyn, Fx33, Fx55, Fx65 when the highest address they would touch exceeds 4095 (R203); records
  PC0 and that address, a natural number that is not reduced. Safe. -/
  | dataOutOfBounds (pc0 : Word) (addr : Nat)
  /-- Code 4. Raised by 2nnn when STACK_LIMIT is set and STACK holds that many entries (R204); records PC0. Safe. -/
  | stackOverflow (pc0 : Word)
  deriving DecidableEq, Repr

/-- Why an operation is turned away with no effect. -/
inductive Refusal where
  /-- Raised by an arm of `exec` for an instruction without a meaning; no arm does. Safe. -/
  | notModelled (mnemonic : String)
  /-- Raised by `loadProgram` on more than 3584 bytes (70_reset_and_hazards.md R232: "refuse; no byte is written"). Safe. -/
  | programTooLong (length : Nat)
  /-- Raised by `loadFont` and `loadProgram` after the first `step` or `cycle` (R234: refused, "change nothing"). Safe. -/
  | loadAfterStart
  /-- Raised by `loadFont` and `loadProgram` on a faulted core (40_execution_engine.md R92: only `initialize` has an
  effect); met only in states no run reaches, since a fault needs a step. Safe. -/
  | coreFaulted
  deriving DecidableEq, Repr

/-- The state: the spec's ten elements (00_scope.md R11), the input KEYS, and three fields of the model's own. -/
structure State where
  /-- MEM (R35). -/
  mem : Memory
  /-- V0 to VF (R20). -/
  v : Vector Byte 16
  /-- I, the index register (R26). -/
  i : Word
  /-- PC, the program counter (R22). -/
  pc : Word
  /-- STACK, the call stack, its top first (R33). -/
  stack : List Word
  /-- DT, the delay timer (R27). -/
  dt : Byte
  /-- ST, the sound timer (R27). -/
  st : Byte
  /-- DISP, the display buffer (R34). -/
  disp : Display
  /-- RUN, the execution state (R28). -/
  run : RunState
  /-- FAULT, the fault latch (R29). -/
  fault : Option Fault
  /-- KEYS, the input the host presents; bit k set when key k is down (R30). No step writes it. -/
  keys : Word
  /-- The model's own: how many free values (RND, KEY_SELECT) have been consumed (log entries 3 and 4). -/
  draws : Nat
  /-- The model's own: whether `step` or `cycle` has been invoked since `initialize` (R234, log entry 6). -/
  hasRun : Bool
  /-- The model's own: the build parameter STACK_LIMIT (R6, log entry 5). No operation writes it. -/
  stackLimit : Option Nat
  deriving DecidableEq, Repr

/-- The state right after `initialize` (10_state.md R40). KEYS is not reset by the spec: 0 is a DESIGN CHOICE (log entry
2). `draws` starts at 0 by DESIGN CHOICE (log entry 3), `stackLimit` at the spec's default (R6). -/
def State.reset : State where
  mem := []
  v := Vector.replicate 16 0
  i := 0
  pc := 0x200
  stack := []
  dt := 0
  st := 0
  disp := []
  run := .playing
  fault := none
  keys := 0
  draws := 0
  hasRun := false
  stackLimit := Config.stackLimitDefault

/-- What a step or an operation answers. -/
abbrev Result := Host.Outcome State Fault Refusal

end Sys2Proof.Machine
end

