-- ==== Sys2Proof/Machine/Ops.lean ====
section
/-! DEFINITION. The named operations over registers, memory, the call stack, the display and the fault latch. Every meaning
is written over these. -/

namespace Sys2Proof.Machine

/-! ## One update per state element -/

def State.setMem (s : State) (m : Memory) : State := { s with mem := m }
def State.setVs (s : State) (v : Vector Byte 16) : State := { s with v := v }
def State.setI (s : State) (w : Word) : State := { s with i := w }
def State.setPc (s : State) (w : Word) : State := { s with pc := w }
def State.setStack (s : State) (l : List Word) : State := { s with stack := l }
def State.setDt (s : State) (b : Byte) : State := { s with dt := b }
def State.setSt (s : State) (b : Byte) : State := { s with st := b }
def State.setDisp (s : State) (d : Display) : State := { s with disp := d }
def State.setRun (s : State) (r : RunState) : State := { s with run := r }
def State.setFault (s : State) (f : Option Fault) : State := { s with fault := f }
/-- The host presents a value of the input KEYS (R30). -/
def State.setKeys (s : State) (k : Word) : State := { s with keys := k }
def State.setDraws (s : State) (n : Nat) : State := { s with draws := n }
def State.setHasRun (s : State) (b : Bool) : State := { s with hasRun := b }

/-! ## General registers (10_state.md R20) -/

/-- `V[x]`. -/
def State.getV (s : State) (x : Nibble) : Byte := s.v[x.toNat]'x.isLt

/-- `V[x] <- b`. No register is hardwired (R20). -/
def State.setV (s : State) (x : Nibble) (b : Byte) : State := s.setVs (s.v.set x.toNat b x.isLt)

/-- VF, general register 15 (R21). -/
def vf : Nibble := 15

/-! ## Memory (20_memory.md) -/

/-- `MemRead(a, 1)` (R53). -/
def Memory.read : Memory → Nat → Byte
  | [], _ => Config.unlistedByte
  | (c, b) :: m, a => if c = a then b else Memory.read m a

/-- Place a cell in an address-ordered list that does not hold its address. -/
def Memory.place (a : Nat) (b : Byte) : Memory → Memory
  | [] => [(a, b)]
  | c :: m => if a < c.1 then (a, b) :: c :: m else c :: Memory.place a b m

/-- `MemWrite(a, 1, b)` (R53): sets that byte and no other. Writing what an unlisted address reads as removes the entry. -/
def Memory.write (m : Memory) (a : Nat) (b : Byte) : Memory :=
  let rest := m.filter (fun c => c.1 != a)
  if b = Config.unlistedByte then rest else Memory.place a b rest

/-- The bytes written one after another at `a`, `a + 1`, ... (ascending, R57). -/
def Memory.writeBytes (m : Memory) (a : Nat) : List Byte → Memory
  | [] => m
  | b :: bs => Memory.writeBytes (m.write a b) (a + 1) bs

/-- The `n` bytes at `a`, `a + 1`, ... (ascending, R57). -/
def Memory.readBytes (m : Memory) (a : Nat) : Nat → List Byte
  | 0 => []
  | n + 1 => m.read a :: Memory.readBytes m (a + 1) n

/-- The canonical form: addresses strictly rising and inside the array, no byte an unlisted address would read as. -/
abbrev Memory.wf (m : Memory) : Prop :=
  m.Pairwise (fun c d => c.1 < d.1) ∧ ∀ c ∈ m, c.1 < Config.memSize ∧ c.2 ≠ Config.unlistedByte

/-! ## Faults (60_exceptions.md R208) -/

/-- `raise F(info)`: the record is latched and the step ends (R208). Nothing else is saved: there is no handler, no vector
and no return (R209). -/
def raise (f : Fault) (s : State) : Result := .next (s.setFault (some f))

/-- The cause code of a fault (R200). -/
def Fault.code : Fault → Nat
  | .stackUnderflow _ => 1
  | .fetchOutOfBounds _ => 2
  | .dataOutOfBounds _ _ => 3
  | .stackOverflow _ => 4

/-- PC0, the address the current instruction was fetched from: during execution PC holds PC0 + 2 (40_execution_engine.md R94). -/
def pc0 (s : State) : Word := s.pc - 2

/-- The addressing law (43_index_memory.md R150): the fault of an instruction that accesses the `k` bytes from I, if
there is one. The sum is a natural number: no wrap, no clamp. -/
def accessFault (k : Nat) (s : State) : Option Fault :=
  if 1 ≤ k ∧ 4095 < s.i.toNat + k - 1 then some (.dataOutOfBounds (pc0 s) (s.i.toNat + k - 1)) else none

/-! ## Control transfer (41_control_flow.md R118) -/

/-- A skip: `PC <- PC + 2` on the advanced PC, when the condition holds. -/
def skipIf (c : Bool) (s : State) : State := if c then s.setPc (s.pc + 2) else s

/-- Whether the call stack holds as many entries as the build allows (R112). -/
def stackFull (s : State) : Bool :=
  match s.stackLimit with
  | none => false
  | some n => s.stack.length == n

/-! ## Keys (10_state.md R30) -/

/-- `k ∈ KEYS`: the latch holds only codes 0x0 to 0xF, so a larger value is never a member (45_keys_timers.md R180). -/
def keyDown (keys : Word) (k : Byte) : Bool := keys.getLsbD k.toNat

/-- The codes of the pressed keys, in rising order. -/
def pressedKeys (keys : Word) : List Byte :=
  ((List.range 16).filter (fun k => keys.getLsbD k)).map (fun k => BitVec.ofNat 8 k)

/-- A member of the non-empty list `k :: ks`: the one that the free index picks (KEY_SELECT, 00_scope.md R6). -/
def chooseKey (index : Nat) (k : Byte) (ks : List Byte) : Byte :=
  ((k :: ks)[index % (ks.length + 1)]?).getD k

/-! ## Display (44_display.md) -/

/-- The order in which DISP is listed: by column, then by row. -/
abbrev pixelBefore (p q : Pixel) : Prop := p.1 < q.1 ∨ (p.1 = q.1 ∧ p.2 < q.2)

/-- `lit(cx, cy)`, the predicate the renderer reads (R174). -/
def Display.lit (d : Display) (p : Pixel) : Bool := d.contains p

/-- Place a cell in an ordered list that does not hold it. -/
def Display.place (p : Pixel) : Display → Display
  | [] => [p]
  | q :: d => if pixelBefore p q then p :: q :: d else q :: Display.place p d

/-- Erase the cell if it is lit, else light it (R171). -/
def Display.toggle (d : Display) (p : Pixel) : Display :=
  if d.lit p then d.filter (fun q => q != p) else Display.place p d

/-- The set bits of one sprite row as coordinates: column 0 is bit 7; sums of naturals, no wrap, no clip (R171, R173). -/
def rowPixels (ox oy : Nat) (b : Byte) : List Pixel :=
  ((List.range 8).filter (fun col => b.getLsbD (7 - col))).map (fun col => (ox + col, oy))

/-- The set bits of a sprite, row after row from `oy` downward (R171). -/
def spritePixels (ox oy : Nat) : List Byte → List Pixel
  | [] => []
  | b :: bs => rowPixels ox oy b ++ spritePixels ox (oy + 1) bs

/-- Toggle the cells one after another; the flag becomes true when a lit cell is met and is never reset (R171). -/
def drawPixels : List Pixel → Display × Bool → Display × Bool
  | [], dc => dc
  | p :: ps, (d, hit) => drawPixels ps (d.toggle p, hit || d.lit p)

/-- The canonical form of DISP: strictly rising, and inside the coordinate domain (R173). -/
abbrev Display.wf (d : Display) : Prop :=
  d.Pairwise pixelBefore ∧ ∀ p ∈ d, p.1 ≤ 262 ∧ p.2 ≤ 269

/-! ## Timers (40_execution_engine.md R99) -/

/-- A timer counts down and stays at 0. -/
def countDown (t : Byte) : Byte := if t = 0 then 0 else t - 1

/-- `timer_tick()`: both timers, once. -/
def timerTick (s : State) : State := (s.setDt (countDown s.dt)).setSt (countDown s.st)

end Sys2Proof.Machine
end

