-- ==== Sys2Proof/Machine/Operands.lean ====
section
/-! DEFINITION. Operand forms: immediates and register operands (30_encoding.md R73), the order of result and flag writes
(42_register_alu.md R131), register blocks (43_index_memory.md R155, R156), BCD digits (R154). -/

namespace Sys2Proof.Machine

/-- `zext_16(nnn)`: the upper four bits zero (R73). -/
def zextAddr (nnn : Addr12) : Word := nnn.setWidth 16

/-- `zext_16(V[x])` (R117, R152, R153). -/
def zextByte (b : Byte) : Word := b.setWidth 16

/-- The result, then the flag: with x = F the flag remains (R131; 8xy1 to 8xy4). -/
def resultThenFlag (x : Nibble) (r f : Byte) (s : State) : State := (s.setV x r).setV vf f

/-- The flag, then the result: with x = F the result remains (R131; 8xy5, 8xy6, 8xy7, 8xyE). -/
def flagThenResult (x : Nibble) (f r : Byte) (s : State) : State := (s.setV vf f).setV x r

/-- The contents of V0 to Vx in order (R155). -/
def regsUpTo (x : Nibble) (s : State) : List Byte := s.v.toList.take (x.toNat + 1)

/-- The bytes written to the registers from number `j` upward (R156). -/
def fillRegs (j : Nat) : List Byte → Vector Byte 16 → Vector Byte 16
  | [], v => v
  | b :: bs, v => fillRegs (j + 1) bs (v.setIfInBounds j b)

/-- Hundreds, tens and units of a byte, "each decimal digit of a value stored in a separate byte" (R154). -/
def bcdDigits (v : Byte) : List Byte :=
  [BitVec.ofNat 8 (v.toNat / 100), BitVec.ofNat 8 (v.toNat / 10 % 10), BitVec.ofNat 8 (v.toNat % 10)]

end Sys2Proof.Machine
end

