-- ==== Sys2Proof/Machine/ControlFlow.lean ====
section
/-! DEFINITION. Control-flow instructions (41_control_flow.md). PC already holds PC0 + 2 (40_execution_engine.md R94). -/

namespace Sys2Proof.Machine

/-- 00EE (R110). -/
def execRet (s : State) : Result :=
  match s.stack with
  | [] => raise (.stackUnderflow (pc0 s)) s
  | top :: rest => .next ((s.setStack rest).setPc top)

/-- 1nnn (R111). -/
def execJp (nnn : Addr12) (s : State) : Result := .next (s.setPc (zextAddr nnn))

/-- 2nnn (R112): the pushed value is the advanced PC. -/
def execCall (nnn : Addr12) (s : State) : Result :=
  if stackFull s then raise (.stackOverflow (pc0 s)) s
  else .next ((s.setStack (s.pc :: s.stack)).setPc (zextAddr nnn))

/-- 3xnn (R113). -/
def execSeImm (x : Nibble) (nn : Byte) (s : State) : Result := .next (skipIf (s.getV x == nn) s)

/-- 4xnn (R114). -/
def execSneImm (x : Nibble) (nn : Byte) (s : State) : Result := .next (skipIf (s.getV x != nn) s)

/-- 5xy0 (R115). -/
def execSeReg (x y : Nibble) (s : State) : Result := .next (skipIf (s.getV x == s.getV y) s)

/-- 9xy0 (R116). -/
def execSneReg (x y : Nibble) (s : State) : Result := .next (skipIf (s.getV x != s.getV y) s)

/-- Bnnn (R117): always V0; at most 0x10FE, so the 16-bit sum never wraps. -/
def execJpV0 (nnn : Addr12) (s : State) : Result := .next (s.setPc (zextAddr nnn + zextByte (s.getV 0)))

end Sys2Proof.Machine
end

