-- ==== Sys2Proof/Machine/Flags.lean ====
section
/-! DEFINITION. The flag values VF receives (10_state.md R25, 42_register_alu.md R130): the full byte 0x00 or 0x01. -/

namespace Sys2Proof.Machine

/-- A flag as the byte stored in VF (R25). -/
def flagByte (c : Bool) : Byte := if c then 1 else 0

/-- Carry of 8xy4: 1 if the sum exceeds 255 (R138). -/
def carryFlag (a b : Byte) : Byte := flagByte (decide (255 < a.toNat + b.toNat))

/-- The flag of 8xy5 and 8xy7: 1 if `a` is strictly greater than `b` (R139, R141). -/
def greaterFlag (a b : Byte) : Byte := flagByte (decide (b.toNat < a.toNat))

/-- The bit a right shift drops, `a AND 1` (R140). -/
def lowBitFlag (a : Byte) : Byte := a &&& 1

/-- The bit a left shift drops, `a >> 7` (R142). -/
def highBitFlag (a : Byte) : Byte := a >>> 7

end Sys2Proof.Machine
end

