-- ==== Sys2Proof/Machine/DisplayInstr.lean ====
section
/-! DEFINITION. Display instructions (44_display.md). -/

namespace Sys2Proof.Machine

/-- 00E0 (R170): VF is not written. -/
def execCls (s : State) : Result := .next (s.setDisp [])

/-- The draw as a function of the lit cells, the sprite bytes and the origin (R172). -/
def drawSprite (ox oy : Byte) (rows : List Byte) (d : Display) : Display × Bool :=
  drawPixels (spritePixels ox.toNat oy.toNat rows) (d, false)

/-- Dxyn (R171): the origin is sampled before VF is written; with n = 0 nothing is read and VF becomes 0. -/
def execDrw (x y n : Nibble) (s : State) : Result :=
  match accessFault n.toNat s with
  | some f => raise f s
  | none =>
    let drawn := drawSprite (s.getV x) (s.getV y) (s.mem.readBytes s.i.toNat n.toNat) s.disp
    .next ((s.setDisp drawn.1).setV vf (flagByte drawn.2))

end Sys2Proof.Machine
end

