-- ==== Sys2Proof/Machine/IndexMemory.lean ====
section
/-! DEFINITION. Index-register and memory instructions (43_index_memory.md). None changes I by a memory access (R150). -/

namespace Sys2Proof.Machine

/-- Annn (R151). -/
def execLdI (nnn : Addr12) (s : State) : Result := .next (s.setI (zextAddr nnn))

/-- Fx1E (R152): wraps at 16 bits, no flag. -/
def execAddI (x : Nibble) (s : State) : Result := .next (s.setI (s.i + zextByte (s.getV x)))

/-- Fx29 (R153): the whole byte, no mask. -/
def execLdF (x : Nibble) (s : State) : Result := .next (s.setI (zextByte (s.getV x) * 5))

/-- Fx33 (R154). -/
def execLdB (x : Nibble) (s : State) : Result :=
  match accessFault 3 s with
  | some f => raise f s
  | none => .next (s.setMem (s.mem.writeBytes s.i.toNat (bcdDigits (s.getV x))))

/-- Fx55 (R155). -/
def execLdMemVx (x : Nibble) (s : State) : Result :=
  match accessFault (x.toNat + 1) s with
  | some f => raise f s
  | none => .next (s.setMem (s.mem.writeBytes s.i.toNat (regsUpTo x s)))

/-- Fx65 (R156). -/
def execLdVxMem (x : Nibble) (s : State) : Result :=
  match accessFault (x.toNat + 1) s with
  | some f => raise f s
  | none => .next (s.setVs (fillRegs 0 (s.mem.readBytes s.i.toNat (x.toNat + 1)) s.v))

end Sys2Proof.Machine
end

