-- ==== Sys2Proof/Machine/KeysTimers.lean ====
section
/-! DEFINITION. Keypad and timer instructions (45_keys_timers.md). -/

namespace Sys2Proof.Machine

/-- Ex9E (R180). -/
def execSkp (x : Nibble) (s : State) : Result := .next (skipIf (keyDown s.keys (s.getV x)) s)

/-- ExA1 (R181). -/
def execSknp (x : Nibble) (s : State) : Result := .next (skipIf (!keyDown s.keys (s.getV x)) s)

/-- Fx0A (R182): no key down, the instruction will be fetched again; one key down, that key; several, the one KEY_SELECT
gives, a free choice (log entry 4). -/
def execLdVxK (x : Nibble) (s : State) : Result :=
  match pressedKeys s.keys with
  | [] => .next (s.setPc (s.pc - 2))
  | [k] => .next (s.setV x k)
  | k :: ks => .next ((s.setV x (chooseKey (Config.keySelect s.draws s.keys) k ks)).setDraws (s.draws + 1))

/-- Fx07 (R183). -/
def execLdVxDt (x : Nibble) (s : State) : Result := .next (s.setV x s.dt)

/-- Fx15 (R184). -/
def execLdDtVx (x : Nibble) (s : State) : Result := .next (s.setDt (s.getV x))

/-- Fx18 (R185). -/
def execLdStVx (x : Nibble) (s : State) : Result := .next (s.setSt (s.getV x))

end Sys2Proof.Machine
end

