-- ==== Sys2Proof/Machine/RegisterAlu.lean ====
section
/-! DEFINITION. Register load, arithmetic, logic, shift and random instructions (42_register_alu.md). Operands are sampled
before any write (R131). -/

namespace Sys2Proof.Machine

/-- 6xnn (R132). -/
def execLdImm (x : Nibble) (nn : Byte) (s : State) : Result := .next (s.setV x nn)

/-- 7xnn (R133): wraps, no flag. -/
def execAddImm (x : Nibble) (nn : Byte) (s : State) : Result := .next (s.setV x (s.getV x + nn))

/-- 8xy0 (R134). -/
def execLdReg (x y : Nibble) (s : State) : Result := .next (s.setV x (s.getV y))

/-- 8xy1 (R135). -/
def execOrReg (x y : Nibble) (s : State) : Result :=
  .next (resultThenFlag x (s.getV x ||| s.getV y) 0 s)

/-- 8xy2 (R136). -/
def execAndReg (x y : Nibble) (s : State) : Result :=
  .next (resultThenFlag x (s.getV x &&& s.getV y) 0 s)

/-- 8xy3 (R137). -/
def execXorReg (x y : Nibble) (s : State) : Result :=
  .next (resultThenFlag x (s.getV x ^^^ s.getV y) 0 s)

/-- 8xy4 (R138). -/
def execAddReg (x y : Nibble) (s : State) : Result :=
  .next (resultThenFlag x (s.getV x + s.getV y) (carryFlag (s.getV x) (s.getV y)) s)

/-- 8xy5 (R139): the comparison is strict. -/
def execSub (x y : Nibble) (s : State) : Result :=
  .next (flagThenResult x (greaterFlag (s.getV x) (s.getV y)) (s.getV x - s.getV y) s)

/-- 8xy6 (R140): y is encoded and ignored. -/
def execShr (x _y : Nibble) (s : State) : Result :=
  .next (flagThenResult x (lowBitFlag (s.getV x)) (s.getV x >>> 1) s)

/-- 8xy7 (R141). -/
def execSubn (x y : Nibble) (s : State) : Result :=
  .next (flagThenResult x (greaterFlag (s.getV y) (s.getV x)) (s.getV y - s.getV x) s)

/-- 8xyE (R142): y is encoded and ignored. -/
def execShl (x _y : Nibble) (s : State) : Result :=
  .next (flagThenResult x (highBitFlag (s.getV x)) (s.getV x <<< 1) s)

/-- Cxnn with the drawn byte given (R143). -/
def rndWith (r : Byte) (x : Nibble) (nn : Byte) (s : State) : State := s.setV x (r &&& nn)

/-- Cxnn (R143): one fresh draw of RND, a free value (log entry 3). -/
def execRnd (x : Nibble) (nn : Byte) (s : State) : Result :=
  .next ((rndWith (Config.rnd s.draws) x nn s).setDraws (s.draws + 1))

end Sys2Proof.Machine
end

