-- ==== Sys2Proof/WellFormed.lean ====
section
/-! DEFINITION. Well-formedness. The operands of an `Instr` need no check: "the field widths guarantee it" (30_encoding.md
R73), so each is a bit vector of exactly its field's width. What can be ill-formed is the opcode map itself (R74) and a
program offered to `load_program` (70_reset_and_hazards.md R232). -/

namespace Sys2Proof

/-- A row of the opcode map (R74): the word belongs to it when `(word AND mask) = match`. -/
structure Row where
  mask   : Word
  target : Word
  deriving DecidableEq, Repr

/-- The word belongs to the row (R74). -/
def Row.accepts (r : Row) (w : Word) : Bool := w &&& r.mask == r.target

/-- The match value has no bit outside the mask, and the mask fixes the whole top nibble, the family selector (R71, R75). -/
def Row.wellFormed (r : Row) : Bool := r.target &&& r.mask == r.target && r.mask &&& 0xF000 == 0xF000

/-- No word belongs to both rows: they fix some common bit differently (R74, "no two rows match the same word"). -/
def Row.disjoint (r q : Row) : Bool := (r.target ^^^ q.target) &&& (r.mask &&& q.mask) != 0

/-- Every row is well formed and no two rows share a word (R74). -/
def opcodeMapWellFormed : List Row → Bool
  | [] => true
  | r :: rs => r.wellFormed && rs.all r.disjoint && opcodeMapWellFormed rs

/-- The row of each instruction, mask and match as R74 lists them. -/
def Instr.row : Instr → Row
  | .cls => ⟨0xFFFF, 0x00E0⟩
  | .ret => ⟨0xFFFF, 0x00EE⟩
  | .jp _ => ⟨0xF000, 0x1000⟩
  | .call _ => ⟨0xF000, 0x2000⟩
  | .seImm _ _ => ⟨0xF000, 0x3000⟩
  | .sneImm _ _ => ⟨0xF000, 0x4000⟩
  | .seReg _ _ => ⟨0xF00F, 0x5000⟩
  | .ldImm _ _ => ⟨0xF000, 0x6000⟩
  | .addImm _ _ => ⟨0xF000, 0x7000⟩
  | .ldReg _ _ => ⟨0xF00F, 0x8000⟩
  | .orReg _ _ => ⟨0xF00F, 0x8001⟩
  | .andReg _ _ => ⟨0xF00F, 0x8002⟩
  | .xorReg _ _ => ⟨0xF00F, 0x8003⟩
  | .addReg _ _ => ⟨0xF00F, 0x8004⟩
  | .sub _ _ => ⟨0xF00F, 0x8005⟩
  | .shr _ _ => ⟨0xF00F, 0x8006⟩
  | .subn _ _ => ⟨0xF00F, 0x8007⟩
  | .shl _ _ => ⟨0xF00F, 0x800E⟩
  | .sneReg _ _ => ⟨0xF00F, 0x9000⟩
  | .ldI _ => ⟨0xF000, 0xA000⟩
  | .jpV0 _ => ⟨0xF000, 0xB000⟩
  | .rnd _ _ => ⟨0xF000, 0xC000⟩
  | .drw _ _ _ => ⟨0xF000, 0xD000⟩
  | .skp _ => ⟨0xF0FF, 0xE09E⟩
  | .sknp _ => ⟨0xF0FF, 0xE0A1⟩
  | .ldVxDt _ => ⟨0xF0FF, 0xF007⟩
  | .ldVxK _ => ⟨0xF0FF, 0xF00A⟩
  | .ldDtVx _ => ⟨0xF0FF, 0xF015⟩
  | .ldStVx _ => ⟨0xF0FF, 0xF018⟩
  | .addI _ => ⟨0xF0FF, 0xF01E⟩
  | .ldF _ => ⟨0xF0FF, 0xF029⟩
  | .ldB _ => ⟨0xF0FF, 0xF033⟩
  | .ldMemVx _ => ⟨0xF0FF, 0xF055⟩
  | .ldVxMem _ => ⟨0xF0FF, 0xF065⟩

/-- The rows of families 0 to 8 of the opcode map, in R74's order. -/
def opcodeMapLow : List Row :=
  [Instr.row .cls, Instr.row .ret, Instr.row (.jp 0), Instr.row (.call 0), Instr.row (.seImm 0 0),
   Instr.row (.sneImm 0 0), Instr.row (.seReg 0 0), Instr.row (.ldImm 0 0), Instr.row (.addImm 0 0),
   Instr.row (.ldReg 0 0), Instr.row (.orReg 0 0), Instr.row (.andReg 0 0), Instr.row (.xorReg 0 0),
   Instr.row (.addReg 0 0), Instr.row (.sub 0 0), Instr.row (.shr 0 0), Instr.row (.subn 0 0),
   Instr.row (.shl 0 0)]

/-- The rows of families 9 to F of the opcode map, in R74's order. -/
def opcodeMapHigh : List Row :=
  [Instr.row (.sneReg 0 0), Instr.row (.ldI 0), Instr.row (.jpV0 0), Instr.row (.rnd 0 0),
   Instr.row (.drw 0 0 0), Instr.row (.skp 0), Instr.row (.sknp 0), Instr.row (.ldVxDt 0),
   Instr.row (.ldVxK 0), Instr.row (.ldDtVx 0), Instr.row (.ldStVx 0), Instr.row (.addI 0),
   Instr.row (.ldF 0), Instr.row (.ldB 0), Instr.row (.ldMemVx 0), Instr.row (.ldVxMem 0)]

/-- The opcode map: the 34 rows of R74. -/
def opcodeMap : List Row := opcodeMapLow ++ opcodeMapHigh

/-- A program `load_program` accepts: at most PROG_MAX bytes (20_memory.md R66, 70_reset_and_hazards.md R232). -/
def programWellFormed (bytes : List Byte) : Bool := decide (bytes.length ≤ Config.progMax)

end Sys2Proof
end

