-- ==== Sys2Proof/Decode.lean ====
section
/-! DEFINITION. Decoding (30_encoding.md R70 to R78) and encoding (the encodings of 41 to 45's rules). -/

namespace Sys2Proof

/-! ## Fields (R71) -/

/-- The family selector, bits 15 to 12. -/
def fieldOp (w : Word) : Nibble := w.extractLsb' 12 4
/-- The register number x, bits 11 to 8. -/
def fieldX (w : Word) : Nibble := w.extractLsb' 8 4
/-- The register number y, bits 7 to 4. -/
def fieldY (w : Word) : Nibble := w.extractLsb' 4 4
/-- The row count or sub-opcode n, bits 3 to 0. -/
def fieldN (w : Word) : Nibble := w.extractLsb' 0 4
/-- The 8-bit immediate or sub-opcode nn, bits 7 to 0. -/
def fieldNN (w : Word) : Byte := w.extractLsb' 0 8
/-- The 12-bit address nnn, bits 11 to 0. -/
def fieldNNN (w : Word) : Addr12 := w.extractLsb' 0 12

/-! ## Byte order (20_memory.md R55: high byte first) -/

/-- The opcode whose bytes in memory order are `hi`, `lo`: "combine as (high << 8) | low" (R54). -/
def wordOfBytes (hi lo : Byte) : Word := BitVec.ofNat 16 (hi.toNat * 256 + lo.toNat)
/-- Opcode bits 15 to 8, the byte at the lower address. -/
def highByte (w : Word) : Byte := w.extractLsb' 8 8
/-- Opcode bits 7 to 0, the byte at the higher address. -/
def lowByte (w : Word) : Byte := w.extractLsb' 0 8

/-! ## Decoding (R75) -/

/-- Why a decoder gives no instruction. -/
inductive DecodeReject where
  /-- The word matches no row of the opcode map (R76). Raised by `decodeWord`. Safe and no stop of the machine: `step` runs it as the no-operation the spec gives it. -/
  | unrecognised (w : Word)
  /-- Fewer than two bytes were given. Raised by `decode` only, never by `step`, which always has both bytes (R54). Safe. -/
  | truncated
  deriving DecidableEq, Repr

/-- Family 8 sub-dispatches on the bottom nibble (R75). -/
def decodeFamily8 (w : Word) : Except DecodeReject Instr :=
  let x := fieldX w
  let y := fieldY w
  match (fieldN w).toNat with
  | 0x0 => .ok (.ldReg x y)
  | 0x1 => .ok (.orReg x y)
  | 0x2 => .ok (.andReg x y)
  | 0x3 => .ok (.xorReg x y)
  | 0x4 => .ok (.addReg x y)
  | 0x5 => .ok (.sub x y)
  | 0x6 => .ok (.shr x y)
  | 0x7 => .ok (.subn x y)
  | 0xE => .ok (.shl x y)
  | _ => .error (.unrecognised w)

/-- Family F sub-dispatches on the bottom byte (R75). -/
def decodeFamilyF (w : Word) : Except DecodeReject Instr :=
  let x := fieldX w
  match (fieldNN w).toNat with
  | 0x07 => .ok (.ldVxDt x)
  | 0x0A => .ok (.ldVxK x)
  | 0x15 => .ok (.ldDtVx x)
  | 0x18 => .ok (.ldStVx x)
  | 0x1E => .ok (.addI x)
  | 0x29 => .ok (.ldF x)
  | 0x33 => .ok (.ldB x)
  | 0x55 => .ok (.ldMemVx x)
  | 0x65 => .ok (.ldVxMem x)
  | _ => .error (.unrecognised w)

/-- "Decode: dispatch on the top nibble (bits 12–15); several opcode families sub-dispatch on the bottom nibble or bottom
byte" (R75). Total: every word is an instruction or is rejected as unrecognised (R76). -/
def decodeWord (w : Word) : Except DecodeReject Instr :=
  match (fieldOp w).toNat with
  | 0x0 => if w = 0x00E0 then .ok .cls else if w = 0x00EE then .ok .ret else .error (.unrecognised w)
  | 0x1 => .ok (.jp (fieldNNN w))
  | 0x2 => .ok (.call (fieldNNN w))
  | 0x3 => .ok (.seImm (fieldX w) (fieldNN w))
  | 0x4 => .ok (.sneImm (fieldX w) (fieldNN w))
  | 0x5 => if fieldN w = 0 then .ok (.seReg (fieldX w) (fieldY w)) else .error (.unrecognised w)
  | 0x6 => .ok (.ldImm (fieldX w) (fieldNN w))
  | 0x7 => .ok (.addImm (fieldX w) (fieldNN w))
  | 0x8 => decodeFamily8 w
  | 0x9 => if fieldN w = 0 then .ok (.sneReg (fieldX w) (fieldY w)) else .error (.unrecognised w)
  | 0xA => .ok (.ldI (fieldNNN w))
  | 0xB => .ok (.jpV0 (fieldNNN w))
  | 0xC => .ok (.rnd (fieldX w) (fieldNN w))
  | 0xD => .ok (.drw (fieldX w) (fieldY w) (fieldN w))
  | 0xE =>
    if fieldNN w = 0x9E then .ok (.skp (fieldX w))
    else if fieldNN w = 0xA1 then .ok (.sknp (fieldX w))
    else .error (.unrecognised w)
  | _ => decodeFamilyF w

/-- Decode the first instruction of a byte sequence in memory order, and give the bytes after it (R70: one length, two bytes). -/
def decode : List Byte → Except DecodeReject (Instr × List Byte)
  | hi :: lo :: rest =>
    match decodeWord (wordOfBytes hi lo) with
    | .ok i => .ok (i, rest)
    | .error e => .error e
  | _ => .error .truncated

/-- The instruction the decoder reads from a table word `w` of `nbits` bits (bit 0 the least significant bit of the opcode), laid
out as the hardware stores it: high byte first (R55). -/
def decodeTableWord (nbits w : Nat) : Option Instr :=
  let word : Word := BitVec.ofNat 16 (w % 2 ^ nbits)
  match decode [highByte word, lowByte word] with
  | .ok (i, _) => some i
  | .error _ => none

/-! ## Encoding (the "Encoding" clause of each instruction's rule) -/

/-- Format NNN: op, then nnn. -/
def encodeNNN (op : Nat) (nnn : Addr12) : Word := BitVec.ofNat 16 (op * 0x1000 + nnn.toNat)
/-- Format XNN: op, x, nn; also format XSS, where nn is a fixed sub-opcode. -/
def encodeXNN (op : Nat) (x : Nibble) (nn : Nat) : Word := BitVec.ofNat 16 (op * 0x1000 + 256 * x.toNat + nn)
/-- Format XYN: op, x, y, n; also format XYS, where n is a fixed sub-opcode. -/
def encodeXYN (op : Nat) (x y : Nibble) (n : Nat) : Word := BitVec.ofNat 16 (op * 0x1000 + 256 * x.toNat + 16 * y.toNat + n)

/-- The 16-bit word of an instruction. -/
def encodeWord : Instr → Word
  | .cls => 0x00E0
  | .ret => 0x00EE
  | .jp nnn => encodeNNN 0x1 nnn
  | .call nnn => encodeNNN 0x2 nnn
  | .seImm x nn => encodeXNN 0x3 x nn.toNat
  | .sneImm x nn => encodeXNN 0x4 x nn.toNat
  | .seReg x y => encodeXYN 0x5 x y 0x0
  | .ldImm x nn => encodeXNN 0x6 x nn.toNat
  | .addImm x nn => encodeXNN 0x7 x nn.toNat
  | .ldReg x y => encodeXYN 0x8 x y 0x0
  | .orReg x y => encodeXYN 0x8 x y 0x1
  | .andReg x y => encodeXYN 0x8 x y 0x2
  | .xorReg x y => encodeXYN 0x8 x y 0x3
  | .addReg x y => encodeXYN 0x8 x y 0x4
  | .sub x y => encodeXYN 0x8 x y 0x5
  | .shr x y => encodeXYN 0x8 x y 0x6
  | .subn x y => encodeXYN 0x8 x y 0x7
  | .shl x y => encodeXYN 0x8 x y 0xE
  | .sneReg x y => encodeXYN 0x9 x y 0x0
  | .ldI nnn => encodeNNN 0xA nnn
  | .jpV0 nnn => encodeNNN 0xB nnn
  | .rnd x nn => encodeXNN 0xC x nn.toNat
  | .drw x y n => encodeXYN 0xD x y n.toNat
  | .skp x => encodeXNN 0xE x 0x9E
  | .sknp x => encodeXNN 0xE x 0xA1
  | .ldVxDt x => encodeXNN 0xF x 0x07
  | .ldVxK x => encodeXNN 0xF x 0x0A
  | .ldDtVx x => encodeXNN 0xF x 0x15
  | .ldStVx x => encodeXNN 0xF x 0x18
  | .addI x => encodeXNN 0xF x 0x1E
  | .ldF x => encodeXNN 0xF x 0x29
  | .ldB x => encodeXNN 0xF x 0x33
  | .ldMemVx x => encodeXNN 0xF x 0x55
  | .ldVxMem x => encodeXNN 0xF x 0x65

/-- The bytes of an instruction in memory order (R55). -/
def encode (i : Instr) : List Byte := [highByte (encodeWord i), lowByte (encodeWord i)]

end Sys2Proof
end

