-- ==== Sys2Proof/Machine/Engine.lean ====
section
/-! DEFINITION. The parts of a step around the instruction (40_execution_engine.md R91 to R94). -/

namespace Sys2Proof.Machine

/-- The core runs no instruction: a fault is latched (R92) or it is Paused (R91). -/
def halted (s : State) : Bool := s.fault.isSome || s.run == .paused

/-- `step` or `cycle` has been invoked: the boot window is over (70_reset_and_hazards.md R234, log entry 6). -/
def closeBootWindow (s : State) : State := s.setHasRun true

/-- Fetch (R93): the two bytes at PC and PC + 1, high byte first, or the fault of a PC above 0xFFE (20_memory.md R54). -/
def fetch (s : State) : Except Fault Word :=
  if 0xFFE < s.pc.toNat then .error (.fetchOutOfBounds s.pc)
  else .ok (wordOfBytes (s.mem.read s.pc.toNat) (s.mem.read (s.pc.toNat + 1)))

/-- "Advance PC by 2 immediately after fetch (before execution)" (R94). -/
def advance (s : State) : State := s.setPc (s.pc + 2)

/-- Place a word at the address the next fetch reads, high byte first (20_memory.md R55). -/
def placeWordAtPc (w : Word) (s : State) : State :=
  s.setMem (s.mem.writeBytes s.pc.toNat [highByte w, lowByte w])

/-- A core that will fetch: Playing, no fault, PC inside memory (at the program base if it is not). -/
def readyToFetch (s : State) : State :=
  let t := (s.setRun .playing).setFault none
  if 0xFFE < s.pc.toNat then t.setPc (BitVec.ofNat 16 Config.progBase) else t

end Sys2Proof.Machine
end

