-- ==== Sys2Proof/Machine/Step.lean ====
section
/-! DEFINITION. The operation `step` (40_execution_engine.md R96). -/

namespace Sys2Proof.Machine

/-- One fetch, decode and execute (R96). A faulted core and a Paused core change no state element (R92, R91); an unrecognised
word has no effect beyond the advance (30_encoding.md R76). -/
def step (s : State) : Host.Outcome State Fault Refusal :=
  let s := closeBootWindow s
  if halted s then .next s
  else
    match fetch s with
    | .error f => raise f s
    | .ok w =>
      match decodeWord w with
      | .ok i => exec i (advance s)
      | .error _ => .next (advance s)

/-- `s` with the table word `w` of `nbits` bits stored where `step` fetches its next instruction (log entry 9). -/
def State.withFetchWord (s : State) (nbits w : Nat) : State :=
  placeWordAtPc (BitVec.ofNat 16 (w % 2 ^ nbits)) (readyToFetch s)

end Sys2Proof.Machine
end

