-- ==== Sys2Proof/Machine/Operations.lean ====
section
/-! DEFINITION. The operations of the core beside `step` (40_execution_engine.md R90): `initialize`, `load_font`,
`load_program`, `cycle`, `toggle_pause`. -/

namespace Sys2Proof.Machine

/-- `initialize` (70_reset_and_hazards.md R230): every state element at its reset value (10_state.md R40). The input KEYS, the
draws already consumed and the build parameter are no state elements and stay (log entry 7). -/
def initialise (s : State) : State :=
  { State.reset with keys := s.keys, draws := s.draws, stackLimit := s.stackLimit }

/-- Why a load is turned away whatever its bytes: after the first `step` or `cycle` (R234), or on a faulted core (R92). -/
def loadRefusal (s : State) : Option Refusal :=
  if s.fault.isSome then some .coreFaulted
  else if s.hasRun then some .loadAfterStart
  else none

/-- `load_font(FONT)` (R231). -/
def loadFont (font : Vector Byte 80) (s : State) : Result :=
  match loadRefusal s with
  | some r => .refused r
  | none => .next (s.setMem (s.mem.writeBytes Config.fontBase font.toList))

/-- `load_program(P)` (R232): more than 3584 bytes are refused and nothing is written. -/
def loadProgram (bytes : List Byte) (s : State) : Result :=
  match loadRefusal s with
  | some r => .refused r
  | none =>
    if programWellFormed bytes then .next (s.setMem (s.mem.writeBytes Config.progBase bytes))
    else .refused (.programTooLong bytes.length)

/-- Up to `n` steps; a step that latches a fault is the last (40_execution_engine.md R98, R101). -/
def runSteps : Nat → State → Result
  | 0, s => .next s
  | n + 1, s =>
    match step s with
    | .next t => if t.fault.isSome then .next t else runSteps n t
    | .fault f => .fault f
    | .refused r => .refused r

/-- `cycle` (R98): ten steps, then one timer tick; no tick after a fault (R101); nothing while faulted (R92) or Paused (R100). -/
def cycle (s : State) : Result :=
  let s := closeBootWindow s
  if halted s then .next s
  else
    match runSteps Config.stepsPerCycle s with
    | .next t => if t.fault.isSome then .next t else .next (timerTick t)
    | .fault f => .fault f
    | .refused r => .refused r

/-- `toggle_pause` (R102): flips RUN and touches nothing else; nothing on a faulted core (R92). -/
def togglePause (s : State) : State :=
  if s.fault.isSome then s
  else s.setRun (match s.run with | .playing => .paused | .paused => .playing)

/-- What the host can ask of the core (R90). KEYS is presented with each `step` and `cycle` (R104). -/
inductive Operation where
  | initialise
  | loadFont (font : Vector Byte 80)
  | loadProgram (bytes : List Byte)
  | step (keys : Word)
  | cycle (keys : Word)
  | togglePause
  deriving DecidableEq, Repr

/-- One operation, run to completion before another starts (R90). -/
def perform : Operation → State → Result
  | .initialise, s => .next (initialise s)
  | .loadFont font, s => loadFont font s
  | .loadProgram bytes, s => loadProgram bytes s
  | .step keys, s => step (s.setKeys keys)
  | .cycle keys, s => cycle (s.setKeys keys)
  | .togglePause, s => .next (togglePause s)

/-- A run: the host's finite sequence of operations (R105). One that is turned away changes nothing (R216, R234). -/
def performAll : List Operation → State → Result
  | [], s => .next s
  | op :: ops, s =>
    match perform op s with
    | .next t => performAll ops t
    | .fault f => .fault f
    | .refused _ => performAll ops s

end Sys2Proof.Machine
end

