-- ==== Sys2Proof/Safety.lean ====
section
/-! DEFINITION. The terms claims are stated in: what is unchanged, what a core that runs is, what the spec says of an
instruction as a function of the instruction alone, and the invariants of the state. -/

namespace Sys2Proof

/-! ## Frames -/

/-- The elements of the state, by name. -/
inductive Part where
  | mem | v | i | pc | stack | dt | st | disp | run | fault | keys | draws | hasRun | stackLimit
  deriving DecidableEq, Repr

open Machine

/-- The element is the same in both states; registers and memory through their reads. -/
def Same (p : Part) (s t : State) : Prop :=
  match p with
  | .mem => ∀ a, t.mem.read a = s.mem.read a
  | .v => ∀ j, t.getV j = s.getV j
  | .i => t.i = s.i
  | .pc => t.pc = s.pc
  | .stack => t.stack = s.stack
  | .dt => t.dt = s.dt
  | .st => t.st = s.st
  | .disp => t.disp = s.disp
  | .run => t.run = s.run
  | .fault => t.fault = s.fault
  | .keys => t.keys = s.keys
  | .draws => t.draws = s.draws
  | .hasRun => t.hasRun = s.hasRun
  | .stackLimit => t.stackLimit = s.stackLimit

/-- Every element but those named is as before. -/
def UnchangedExcept (ps : List Part) (s t : State) : Prop := ∀ p, p ∉ ps → Same p s t

/-- Every general register but those named is as before. -/
def RegsUnchangedExcept (xs : List Nibble) (s t : State) : Prop := ∀ j, j ∉ xs → t.getV j = s.getV j

/-! ## Runs -/

/-- The core runs instructions: no fault is latched and RUN is Playing (40_execution_engine.md R93). -/
def Running (s : State) : Prop := s.fault = none ∧ s.run = .playing

/-- The 16-bit number `w` is the opcode of `i`. -/
def DecodesTo (w : Nat) (i : Instr) : Prop := w < 65536 ∧ decodeWord (BitVec.ofNat 16 w) = .ok i

/-- The bytes at PC and PC + 1 are the opcode of `i`, and both lie in memory (20_memory.md R54). -/
def AtInstr (i : Instr) (s : State) : Prop :=
  s.pc.toNat ≤ 0xFFE ∧ decode [s.mem.read s.pc.toNat, s.mem.read (s.pc.toNat + 1)] = .ok (i, [])

/-- The bytes at PC and PC + 1 lie in memory and are no instruction (30_encoding.md R76). -/
def AtUnrecognised (s : State) : Prop :=
  s.pc.toNat ≤ 0xFFE ∧
    ∃ w, decode [s.mem.read s.pc.toNat, s.mem.read (s.pc.toNat + 1)] = .error (.unrecognised w)

/-! ## What the spec says of an instruction as syntax -/

/-- The elements an instruction may write, beside the fault latch when it raises (10_state.md R26, R27, R33, R34, 20_memory.md
R57, and each instruction's rule). -/
def Instr.writes : Instr → List Part
  | .cls => [.disp]
  | .ret => [.pc, .stack]
  | .jp _ => [.pc]
  | .call _ => [.pc, .stack]
  | .seImm _ _ => [.pc]
  | .sneImm _ _ => [.pc]
  | .seReg _ _ => [.pc]
  | .ldImm _ _ => [.v]
  | .addImm _ _ => [.v]
  | .ldReg _ _ => [.v]
  | .orReg _ _ => [.v]
  | .andReg _ _ => [.v]
  | .xorReg _ _ => [.v]
  | .addReg _ _ => [.v]
  | .sub _ _ => [.v]
  | .shr _ _ => [.v]
  | .subn _ _ => [.v]
  | .shl _ _ => [.v]
  | .sneReg _ _ => [.pc]
  | .ldI _ => [.i]
  | .jpV0 _ => [.pc]
  | .rnd _ _ => [.v, .draws]
  | .drw _ _ _ => [.v, .disp]
  | .skp _ => [.pc]
  | .sknp _ => [.pc]
  | .ldVxDt _ => [.v]
  | .ldVxK _ => [.v, .pc, .draws]
  | .ldDtVx _ => [.dt]
  | .ldStVx _ => [.st]
  | .addI _ => [.i]
  | .ldF _ => [.i]
  | .ldB _ => [.mem]
  | .ldMemVx _ => [.mem]
  | .ldVxMem _ => [.v]

/-- The general registers an instruction may write: its destination, and VF where it is written as a flag (10_state.md R21, R25). -/
def Instr.destinations : Instr → List Nibble
  | .cls => []
  | .ret => []
  | .jp _ => []
  | .call _ => []
  | .seImm _ _ => []
  | .sneImm _ _ => []
  | .seReg _ _ => []
  | .ldImm x _ => [x]
  | .addImm x _ => [x]
  | .ldReg x _ => [x]
  | .orReg x _ => [x, 15]
  | .andReg x _ => [x, 15]
  | .xorReg x _ => [x, 15]
  | .addReg x _ => [x, 15]
  | .sub x _ => [x, 15]
  | .shr x _ => [x, 15]
  | .subn x _ => [x, 15]
  | .shl x _ => [x, 15]
  | .sneReg _ _ => []
  | .ldI _ => []
  | .jpV0 _ => []
  | .rnd x _ => [x]
  | .drw _ _ _ => [15]
  | .skp _ => []
  | .sknp _ => []
  | .ldVxDt x => [x]
  | .ldVxK x => [x]
  | .ldDtVx _ => []
  | .ldStVx _ => []
  | .addI _ => []
  | .ldF _ => []
  | .ldB _ => []
  | .ldMemVx _ => []
  | .ldVxMem x => (List.range (x.toNat + 1)).map (fun j => BitVec.ofNat 4 j)

/-- How many bytes from I an instruction accesses (20_memory.md R57, 43_index_memory.md R150). -/
def Instr.accessCount : Instr → Nat
  | .drw _ _ n => n.toNat
  | .ldB _ => 3
  | .ldMemVx x => x.toNat + 1
  | .ldVxMem x => x.toNat + 1
  | .cls | .ret | .jp _ | .call _ | .seImm _ _ | .sneImm _ _ | .seReg _ _ | .ldImm _ _ | .addImm _ _ | .ldReg _ _ => 0
  | .orReg _ _ | .andReg _ _ | .xorReg _ _ | .addReg _ _ | .sub _ _ | .shr _ _ | .subn _ _ | .shl _ _ => 0
  | .sneReg _ _ | .ldI _ | .jpV0 _ | .rnd _ _ | .skp _ | .sknp _ | .ldVxDt _ | .ldVxK _ | .ldDtVx _ => 0
  | .ldStVx _ | .addI _ | .ldF _ => 0

/-- The PC an instruction at `s.pc` leaves when it raises no fault, as 10_state.md R23 lists it (`s` is the state before the step). -/
def Instr.pcAfter (i : Instr) (s : State) : Nat :=
  let here := s.pc.toNat
  let skip := fun (c : Bool) => if c then here + 4 else here + 2
  match i with
  | .jp nnn => nnn.toNat
  | .call nnn => nnn.toNat
  | .ret => (s.stack.headD 0).toNat
  | .jpV0 nnn => nnn.toNat + (s.getV 0).toNat
  | .seImm x nn => skip (s.getV x == nn)
  | .sneImm x nn => skip (s.getV x != nn)
  | .seReg x y => skip (s.getV x == s.getV y)
  | .sneReg x y => skip (s.getV x != s.getV y)
  | .skp x => skip (decide ((s.getV x).toNat < 16) && s.keys.getLsbD (s.getV x).toNat)
  | .sknp x => skip (!(decide ((s.getV x).toNat < 16) && s.keys.getLsbD (s.getV x).toNat))
  | .ldVxK _ => if s.keys = 0 then here else here + 2
  | .cls | .ldImm _ _ | .addImm _ _ | .ldReg _ _ | .orReg _ _ | .andReg _ _ | .xorReg _ _ | .addReg _ _ => here + 2
  | .sub _ _ | .shr _ _ | .subn _ _ | .shl _ _ | .ldI _ | .rnd _ _ | .drw _ _ _ | .ldVxDt _ | .ldDtVx _ => here + 2
  | .ldStVx _ | .addI _ | .ldF _ | .ldB _ | .ldMemVx _ | .ldVxMem _ => here + 2

/-- `p ∈ S`, the cells of the set bits of Dxyn's sprite (44_display.md R172), read in state `s`. -/
def InSprite (x y n : Nibble) (s : State) (p : Pixel) : Prop :=
  ∃ row col : Nat, row < n.toNat ∧ col < 8 ∧
    p = ((s.getV x).toNat + col, (s.getV y).toNat + row) ∧
    (s.mem.read (s.i.toNat + row)).getLsbD (7 - col) = true

/-! ## Invariants -/

/-- Memory is in its canonical form. -/
abbrev MemoryCanonical (s : State) : Prop := s.mem.wf

/-- DISP is in its canonical form and inside the coordinate domain of 44_display.md R173. -/
abbrev DisplayCanonical (s : State) : Prop := s.disp.wf

/-- PC is at most 0x10FE (10_state.md R24) and every call-stack entry is one that 2nnn pushes, 0x002 to 0x1000 (41_control_flow.md
R110). -/
abbrev ControlInRange (s : State) : Prop :=
  s.pc.toNat ≤ 0x10FE ∧ ∀ e ∈ s.stack, 2 ≤ e.toNat ∧ e.toNat ≤ 0x1000

/-- In a build with STACK_LIMIT the call stack never holds more entries (00_scope.md R6). -/
abbrev StackWithinLimit (s : State) : Prop := ∀ n ∈ s.stackLimit, s.stack.length ≤ n

/-- A latched fault has been preceded by a `step` or `cycle`: the boot window is closed (70_reset_and_hazards.md R234). -/
abbrev FaultAfterRun (s : State) : Prop := s.fault ≠ none → s.hasRun = true

/-- All of the invariants. -/
structure Inv (s : State) : Prop where
  memory : MemoryCanonical s
  display : DisplayCanonical s
  control : ControlInRange s
  depth : StackWithinLimit s
  ran : FaultAfterRun s

end Sys2Proof
end

