-- ==== Sys2Proof/Certificates/Slice0/Obligations.lean ====
section
/-! DEFINITION. The statements for the provers. `exec` is applied to the state whose PC already holds PC0 + 2
(40_execution_engine.md R94); `step` starts from the state whose PC is PC0. -/

open Sys2Proof Sys2Proof.Machine

/-- For every instruction i, with every operand at every value its field admits, and any bytes after it, decode (encode i
++ rest) is i with exactly rest left over. (30_encoding.md R70 to R75, 20_memory.md R55.) -/
def Obligations.DecodeEncodeRoundTrip : Prop :=
  ∀ (i : Instr) (rest : List Byte), decode (encode i ++ rest) = .ok (i, rest)

/-- If decodeWord w gives instruction i then encodeWord i is w again: decoding drops no bit of any recognised word, the
ignored y of the shifts included. (30_encoding.md R71, R74, R75.) -/
def Obligations.EveryDecodedWordEncodesBack : Prop :=
  ∀ (w : Word) (i : Instr), decodeWord w = .ok i → encodeWord i = w

/-- For every word: if it decodes to i, then i's row accepts it; if a row of the 34-row map accepts it, then it decodes to
an instruction of that row; and no two rows accept it. (30_encoding.md R74, R75.) -/
def Obligations.DecoderFollowsOpcodeMap : Prop :=
  ∀ w : Word,
    (∀ i, decodeWord w = .ok i → i.row ∈ opcodeMap ∧ i.row.accepts w = true) ∧
    (∀ r ∈ opcodeMap, r.accepts w = true → ∃ i, decodeWord w = .ok i ∧ i.row = r) ∧
    (∀ r ∈ opcodeMap, ∀ q ∈ opcodeMap, r.accepts w = true → q.accepts w = true → r = q)

/-- A word is rejected by the decoder exactly when it is in the families and sub-opcodes R76 lists. When the bytes at PC
are such a word, a running core answers a next state with PC advanced by 2 and no other element changed, so no fault
either (the model's own hasRun mark, log entry 6, aside). (R76.) -/
def Obligations.UnrecognisedWordsAreNoOperations : Prop :=
  (∀ w : Word, (∃ e, decodeWord w = .error e) ↔
    (w.toNat / 4096 = 0x0 ∧ w.toNat ≠ 0x00E0 ∧ w.toNat ≠ 0x00EE) ∨
    (w.toNat / 4096 = 0x5 ∧ w.toNat % 16 ≠ 0) ∨
    (w.toNat / 4096 = 0x8 ∧ w.toNat % 16 ∈ [0x8, 0x9, 0xA, 0xB, 0xC, 0xD, 0xF]) ∨
    (w.toNat / 4096 = 0x9 ∧ w.toNat % 16 ≠ 0) ∨
    (w.toNat / 4096 = 0xE ∧ w.toNat % 256 ∉ [0x9E, 0xA1]) ∨
    (w.toNat / 4096 = 0xF ∧
      w.toNat % 256 ∉ [0x07, 0x0A, 0x15, 0x18, 0x1E, 0x29, 0x33, 0x55, 0x65])) ∧
  (∀ s : State, Running s → AtUnrecognised s →
    ∃ t, step s = .next t ∧ t.pc.toNat = s.pc.toNat + 2 ∧ UnchangedExcept [.pc, .hasRun] s t)

/-- A few words of the spec's decode vectors and of its end-to-end scenario, read from their two bytes in memory order,
decode to the instructions they stand for. (95_test_vectors.md T1, T2, T5, T7, T10, T12, T14, E9.) -/
def Obligations.SpecWordsDecodeAsListed : Prop :=
  decode [0x00, 0xE0] = .ok (.cls, []) ∧ decode [0x00, 0xEE] = .ok (.ret, []) ∧
  decode [0x51, 0x20] = .ok (.seReg 1 2, []) ∧ decode [0x81, 0x27] = .ok (.subn 1 2, []) ∧
  decode [0xE1, 0x9E] = .ok (.skp 1, []) ∧ decode [0xF1, 0x65] = .ok (.ldVxMem 1, []) ∧
  decode [0xD0, 0x15] = .ok (.drw 0 1 5, []) ∧ decode [0x61, 0x0A] = .ok (.ldImm 1 0x0A, []) ∧
  decode [0x12, 0x00] = .ok (.jp 0x200, [])

/-- When the core runs (no fault, Playing) and the bytes at PC and PC + 1 decode to i, step is exec i on the state with PC
+ 2. An unrecognised word gives that state itself. PC above 0xFFE latches FetchOutOfBounds(PC) and changes nothing
else. A faulted or Paused core changes no state element. In every case, that of a Paused or faulted core, which runs
nothing, included, the step also sets the model's own mark hasRun: this is the model's deduction (log entry 6,
DEDUCED), and no rule says it. That a fault is a next state is log entry 1, and that exec takes the state with PC + 2
is log entry 10. (40_execution_engine.md R91 to R96, 30_encoding.md R76, 20_memory.md R54.) -/
def Obligations.StepIsFetchDecodeExecute : Prop :=
  ∀ s : State,
    (Running s → ∀ i, AtInstr i s →
      step s = exec i { s with pc := s.pc + 2, hasRun := true }) ∧
    (Running s → AtUnrecognised s → step s = .next { s with pc := s.pc + 2, hasRun := true }) ∧
    (Running s → 0xFFE < s.pc.toNat →
      step s = .next { s with fault := some (.fetchOutOfBounds s.pc), hasRun := true }) ∧
    (¬ Running s → step s = .next { s with hasRun := true })

/-- From every state whatever, step answers a next state: a fault is a latched record in that state, and no instruction is
refused. That a raised fault is a next state is the model's reading of R208 (log entry 1). (40_execution_engine.md
R97, 60_exceptions.md R208.) -/
def Obligations.StepAlwaysAnswersNext : Prop :=
  ∀ s : State, ∃ t, step s = .next t

/-- If FAULT is not none, Paused or not: step and cycle answer a state equal in every element (the model's hasRun mark,
log entry 6, aside), toggle_pause answers the same state, a load is turned away, and initialize leaves FAULT none.
(R92.) -/
def Obligations.FaultedCoreOnlyInitialises : Prop :=
  ∀ s : State, s.fault ≠ none →
    (∃ t, step s = .next t ∧ UnchangedExcept [.hasRun] s t) ∧
    (∃ t, cycle s = .next t ∧ UnchangedExcept [.hasRun] s t) ∧
    togglePause s = s ∧
    (∀ font, ∃ r, loadFont font s = .refused r) ∧
    (∀ bytes, ∃ r, loadProgram bytes s = .refused r) ∧
    (initialise s).fault = none

/-- If RUN is Paused, step and cycle answer a next state with every element as before: no fetch, no PC advance, no
execution, no timer tick (the model's hasRun mark, log entry 6, aside). (R91, R100.) -/
def Obligations.PausedCoreRunsNothing : Prop :=
  ∀ s : State, s.run = .paused →
    (∃ t, step s = .next t ∧ UnchangedExcept [.hasRun] s t) ∧
    (∃ t, cycle s = .next t ∧ UnchangedExcept [.hasRun] s t)

/-- For PC ≤ 4094 the fetch primitive gives the big-endian word at PC. For a running core with PC ≥ 4095, 4095 itself
included, step latches FetchOutOfBounds with info PC and changes nothing else, PC included. (R54, R93.) -/
def Obligations.FetchReadsBigEndianOrFaults : Prop :=
  ∀ s : State,
    (s.pc.toNat ≤ 4094 → ∃ w, fetch s = .ok w ∧
      w.toNat = (s.mem.read s.pc.toNat).toNat * 256 + (s.mem.read (s.pc.toNat + 1)).toNat) ∧
    (Running s → 4095 ≤ s.pc.toNat →
      ∃ t, step s = .next t ∧ t.fault = some (.fetchOutOfBounds s.pc) ∧
        UnchangedExcept [.fault, .hasRun] s t)

/-- If a running core steps from instruction i at PC0 and no fault results, PC afterwards is: nnn for 1nnn and 2nnn, the
popped entry for 00EE, nnn + V0 for Bnnn, PC0 + 4 or PC0 + 2 for the six skips as their condition says, PC0 for Fx0A
with no key and PC0 + 2 with one, PC0 + 2 for every other instruction and every unrecognised word. (R23.) -/
def Obligations.PcAfterEveryInstruction : Prop :=
  ∀ s : State, Running s →
    (∀ i, AtInstr i s → ∃ t, step s = .next t ∧ (t.fault = none → t.pc.toNat = i.pcAfter s)) ∧
    (AtUnrecognised s → ∃ t, step s = .next t ∧ t.pc.toNat = s.pc.toNat + 2)

/-- A running core whose bytes at PC and PC + 1 are 0x00 answers PC + 2 with nothing else changed (the hasRun mark, log
entry 6, aside); once PC exceeds 0xFFE the step latches FetchOutOfBounds. (R77.) -/
def Obligations.ZeroedMemoryIsWalkedThrough : Prop :=
  ∀ s : State, Running s →
    (s.pc.toNat ≤ 0xFFE → s.mem.read s.pc.toNat = 0 → s.mem.read (s.pc.toNat + 1) = 0 →
      ∃ t, step s = .next t ∧ t.pc.toNat = s.pc.toNat + 2 ∧ UnchangedExcept [.pc, .hasRun] s t) ∧
    (0xFFE < s.pc.toNat → ∃ t, step s = .next t ∧ t.fault = some (.fetchOutOfBounds s.pc))

/-- The word 0x00EE is RET. With a non-empty STACK exec answers a next state with PC the top entry, STACK one shorter and
nothing else changed. With an empty STACK it latches StackUnderflow with info PC0 (PC − 2 on the advanced state) and
changes nothing else. (R110, R201.) -/
def Obligations.RetPopsOrUnderflows : Prop :=
  DecodesTo 0x00EE .ret ∧
  ∀ s : State,
    (∀ top rest, s.stack = top :: rest →
      ∃ t, exec .ret s = .next t ∧ t.pc = top ∧ t.stack = rest ∧ UnchangedExcept [.pc, .stack] s t) ∧
    (s.stack = [] →
      ∃ t, exec .ret s = .next t ∧ t.fault = some (.stackUnderflow (s.pc - 2)) ∧
        UnchangedExcept [.fault] s t)

/-- The word 0x1000 + nnn is JP nnn; for every state exec answers a next state whose PC is the number nnn, with every
other element, STACK included, as before. (R111.) -/
def Obligations.JumpLoadsTheTwelveBitTarget : Prop :=
  ∀ (nnn : Addr12) (s : State), DecodesTo (0x1000 + nnn.toNat) (.jp nnn) ∧
    ∃ t, exec (.jp nnn) s = .next t ∧ t.pc.toNat = nnn.toNat ∧ UnchangedExcept [.pc] s t

/-- The word 0x2000 + nnn is CALL nnn. Unless STACK_LIMIT is set and STACK holds that many entries, exec answers a next
state with the advanced PC pushed, PC = nnn, and nothing else changed; at the limit it latches StackOverflow with info
PC0 and changes nothing else. With STACK_LIMIT none no fault occurs. (R112, R204.) -/
def Obligations.CallPushesTheReturnAddress : Prop :=
  ∀ (nnn : Addr12) (s : State), DecodesTo (0x2000 + nnn.toNat) (.call nnn) ∧
    (s.stackLimit ≠ some s.stack.length →
      ∃ t, exec (.call nnn) s = .next t ∧ t.pc.toNat = nnn.toNat ∧ t.stack = s.pc :: s.stack ∧
        UnchangedExcept [.pc, .stack] s t) ∧
    (s.stackLimit = some s.stack.length →
      ∃ t, exec (.call nnn) s = .next t ∧ t.fault = some (.stackOverflow (s.pc - 2)) ∧
        UnchangedExcept [.fault] s t)

/-- The word 0xB000 + nnn is JP V0, nnn; for every state exec answers a next state whose PC is the number nnn + V0 (at
most 0x10FE), with every other element as before. (R117.) -/
def Obligations.JumpWithOffsetAddsV0 : Prop :=
  ∀ (nnn : Addr12) (s : State), DecodesTo (0xB000 + nnn.toNat) (.jpV0 nnn) ∧
    ∃ t, exec (.jpV0 nnn) s = .next t ∧ t.pc.toNat = nnn.toNat + (s.getV 0).toNat ∧
      UnchangedExcept [.pc] s t

/-- The words 0x3000 + 256x + nn and 0x4000 + 256x + nn; for every state each answers a next state whose PC is 2 further
exactly when its condition holds, with nothing else changed. (R113, R114.) -/
def Obligations.ImmediateSkipsCompareVxWithNn : Prop :=
  ∀ (x : Nibble) (nn : Byte) (s : State),
    DecodesTo (0x3000 + 256 * x.toNat + nn.toNat) (.seImm x nn) ∧
    DecodesTo (0x4000 + 256 * x.toNat + nn.toNat) (.sneImm x nn) ∧
    (∃ t, exec (.seImm x nn) s = .next t ∧
      t.pc = (if (s.getV x).toNat = nn.toNat then s.pc + 2 else s.pc) ∧ UnchangedExcept [.pc] s t) ∧
    (∃ t, exec (.sneImm x nn) s = .next t ∧
      t.pc = (if (s.getV x).toNat = nn.toNat then s.pc else s.pc + 2) ∧ UnchangedExcept [.pc] s t)

/-- The words 0x5000 + 256x + 16y and 0x9000 + 256x + 16y, and no word of the two families with another low nibble; for
every state each answers a next state whose PC is 2 further exactly when its condition holds, with nothing else
changed. (R115, R116.) -/
def Obligations.RegisterSkipsCompareVxWithVy : Prop :=
  (∀ (x y : Nibble) (s : State),
    DecodesTo (0x5000 + 256 * x.toNat + 16 * y.toNat) (.seReg x y) ∧
    DecodesTo (0x9000 + 256 * x.toNat + 16 * y.toNat) (.sneReg x y) ∧
    (∃ t, exec (.seReg x y) s = .next t ∧
      t.pc = (if (s.getV x).toNat = (s.getV y).toNat then s.pc + 2 else s.pc) ∧
      UnchangedExcept [.pc] s t) ∧
    (∃ t, exec (.sneReg x y) s = .next t ∧
      t.pc = (if (s.getV x).toNat = (s.getV y).toNat then s.pc else s.pc + 2) ∧
      UnchangedExcept [.pc] s t)) ∧
  (∀ w : Word, w.toNat / 4096 = 0x5 ∨ w.toNat / 4096 = 0x9 → w.toNat % 16 ≠ 0 →
    decodeWord w = .error (.unrecognised w))

/-- The words 0x6000 + 256x + nn and 0x8000 + 256x + 16y; for every state each answers a next state in which Vx holds the
value, every other register (VF unless it is Vx) and every other element is as before. (R132, R134.) -/
def Obligations.LoadsWriteTheirDestination : Prop :=
  ∀ (x y : Nibble) (nn : Byte) (s : State),
    DecodesTo (0x6000 + 256 * x.toNat + nn.toNat) (.ldImm x nn) ∧
    DecodesTo (0x8000 + 256 * x.toNat + 16 * y.toNat) (.ldReg x y) ∧
    (∃ t, exec (.ldImm x nn) s = .next t ∧
      (∀ j, t.getV j = if j = x then nn else s.getV j) ∧ UnchangedExcept [.v] s t) ∧
    (∃ t, exec (.ldReg x y) s = .next t ∧
      (∀ j, t.getV j = if j = x then s.getV y else s.getV j) ∧ UnchangedExcept [.v] s t)

/-- The word 0x7000 + 256x + nn; for every state exec answers a next state in which Vx is (Vx + nn) mod 256 and every
other register, VF included unless x = F, and every other element is as before. (R133.) -/
def Obligations.AddImmediateWrapsWithoutFlag : Prop :=
  ∀ (x : Nibble) (nn : Byte) (s : State),
    DecodesTo (0x7000 + 256 * x.toNat + nn.toNat) (.addImm x nn) ∧
    ∃ t, exec (.addImm x nn) s = .next t ∧
      (t.getV x).toNat = ((s.getV x).toNat + nn.toNat) % 256 ∧
      RegsUnchangedExcept [x] s t ∧ UnchangedExcept [.v] s t

/-- The words 0x8001, 0x8002, 0x8003 + 256x + 16y; for every state each answers a next state in which VF is 0 (also when x
= F), Vx is the bitwise result of the values before the instruction, and every other register and element is as
before. (R135, R136, R137.) -/
def Obligations.LogicForcesVfToZero : Prop :=
  ∀ (x y : Nibble) (s : State),
    DecodesTo (0x8001 + 256 * x.toNat + 16 * y.toNat) (.orReg x y) ∧
    DecodesTo (0x8002 + 256 * x.toNat + 16 * y.toNat) (.andReg x y) ∧
    DecodesTo (0x8003 + 256 * x.toNat + 16 * y.toNat) (.xorReg x y) ∧
    (∃ t, exec (.orReg x y) s = .next t ∧ UnchangedExcept [.v] s t ∧ ∀ j, t.getV j =
      if j = 15 then 0 else if j = x then s.getV x ||| s.getV y else s.getV j) ∧
    (∃ t, exec (.andReg x y) s = .next t ∧ UnchangedExcept [.v] s t ∧ ∀ j, t.getV j =
      if j = 15 then 0 else if j = x then s.getV x &&& s.getV y else s.getV j) ∧
    (∃ t, exec (.xorReg x y) s = .next t ∧ UnchangedExcept [.v] s t ∧ ∀ j, t.getV j =
      if j = 15 then 0 else if j = x then s.getV x ^^^ s.getV y else s.getV j)

/-- The word 0x8004 + 256x + 16y; for every state exec answers a next state in which VF is 1 if Vx + Vy exceeds 255 and 0
otherwise (also when x = F), Vx for x ≠ F is the sum mod 256, and every other register and element is as before.
(R138.) -/
def Obligations.AddRegistersSetsCarry : Prop :=
  ∀ (x y : Nibble) (s : State),
    DecodesTo (0x8004 + 256 * x.toNat + 16 * y.toNat) (.addReg x y) ∧
    ∃ t, exec (.addReg x y) s = .next t ∧
      (t.getV 15).toNat = (if 255 < (s.getV x).toNat + (s.getV y).toNat then 1 else 0) ∧
      (x ≠ 15 → (t.getV x).toNat = ((s.getV x).toNat + (s.getV y).toNat) % 256) ∧
      RegsUnchangedExcept [x, 15] s t ∧ UnchangedExcept [.v] s t

/-- The words 0x8005 and 0x8007 + 256x + 16y; for every state each answers a next state in which Vx is the difference mod
256 (also when x = F), VF for x ≠ F is 1 exactly when the minuend is strictly greater, both from the values before the
instruction, and every other register and element is as before. (R139, R141.) -/
def Obligations.SubtractionsSetStrictFlag : Prop :=
  ∀ (x y : Nibble) (s : State),
    DecodesTo (0x8005 + 256 * x.toNat + 16 * y.toNat) (.sub x y) ∧
    DecodesTo (0x8007 + 256 * x.toNat + 16 * y.toNat) (.subn x y) ∧
    (∃ t, exec (.sub x y) s = .next t ∧
      (t.getV x).toNat = ((s.getV x).toNat + 256 - (s.getV y).toNat) % 256 ∧
      (x ≠ 15 → (t.getV 15).toNat = if (s.getV y).toNat < (s.getV x).toNat then 1 else 0) ∧
      RegsUnchangedExcept [x, 15] s t ∧ UnchangedExcept [.v] s t) ∧
    (∃ t, exec (.subn x y) s = .next t ∧
      (t.getV x).toNat = ((s.getV y).toNat + 256 - (s.getV x).toNat) % 256 ∧
      (x ≠ 15 → (t.getV 15).toNat = if (s.getV x).toNat < (s.getV y).toNat then 1 else 0) ∧
      RegsUnchangedExcept [x, 15] s t ∧ UnchangedExcept [.v] s t)

/-- The words 0x8006 and 0x800E + 256x + 16y; for every state and every y each answers a next state in which Vx is Vx div
2, or 2·Vx mod 256 (also when x = F), VF for x ≠ F is bit 0, or bit 7, of Vx before the shift, and every other
register and element is as before. (R140, R142.) -/
def Obligations.ShiftsIgnoreVyAndKeepTheLostBit : Prop :=
  ∀ (x y : Nibble) (s : State),
    DecodesTo (0x8006 + 256 * x.toNat + 16 * y.toNat) (.shr x y) ∧
    DecodesTo (0x800E + 256 * x.toNat + 16 * y.toNat) (.shl x y) ∧
    (∃ t, exec (.shr x y) s = .next t ∧
      (t.getV x).toNat = (s.getV x).toNat / 2 ∧
      (x ≠ 15 → (t.getV 15).toNat = (s.getV x).toNat % 2) ∧
      RegsUnchangedExcept [x, 15] s t ∧ UnchangedExcept [.v] s t) ∧
    (∃ t, exec (.shl x y) s = .next t ∧
      (t.getV x).toNat = 2 * (s.getV x).toNat % 256 ∧
      (x ≠ 15 → (t.getV 15).toNat = (s.getV x).toNat / 128) ∧
      RegsUnchangedExcept [x, 15] s t ∧ UnchangedExcept [.v] s t)

/-- The word 0xC000 + 256x + nn; for every state exec answers a next state in which Vx is the draw AND nn, so it has no
bit that nn has clear and is 0 for nn = 0; the draw counter moves on by one, so the next draw is a fresh one; every
other register and element is as before. The draw is a free value (log entry 3); nothing is claimed of it. (R143.) -/
def Obligations.RandomByteIsMaskedByNn : Prop :=
  ∀ (x : Nibble) (nn : Byte) (s : State),
    DecodesTo (0xC000 + 256 * x.toNat + nn.toNat) (.rnd x nn) ∧
    ∃ t, exec (.rnd x nn) s = .next t ∧
      t.getV x = Config.rnd s.draws &&& nn ∧ t.draws = s.draws + 1 ∧
      (∀ k, nn.getLsbD k = false → (t.getV x).getLsbD k = false) ∧
      RegsUnchangedExcept [x] s t ∧ UnchangedExcept [.v, .draws] s t

/-- The words 0xA000 + nnn, 0xF01E + 256x and 0xF029 + 256x; for every state they answer a next state in which I is nnn,
(I + Vx) mod 65536, and 5·Vx with the whole byte Vx; VF and every other element are as before. (R151, R152, R153.) -/
def Obligations.IndexWritesComputeI : Prop :=
  ∀ (x : Nibble) (nnn : Addr12) (s : State),
    DecodesTo (0xA000 + nnn.toNat) (.ldI nnn) ∧
    DecodesTo (0xF01E + 256 * x.toNat) (.addI x) ∧
    DecodesTo (0xF029 + 256 * x.toNat) (.ldF x) ∧
    (∃ t, exec (.ldI nnn) s = .next t ∧ t.i.toNat = nnn.toNat ∧ UnchangedExcept [.i] s t) ∧
    (∃ t, exec (.addI x) s = .next t ∧ t.i.toNat = (s.i.toNat + (s.getV x).toNat) % 65536 ∧
      UnchangedExcept [.i] s t) ∧
    (∃ t, exec (.ldF x) s = .next t ∧ t.i.toNat = (s.getV x).toNat * 5 ∧ UnchangedExcept [.i] s t)

/-- The word 0xF033 + 256x. If I + 2 ≤ 4095 exec answers a next state in which those three bytes are the decimal digits of
Vx and every other byte and element is as before; otherwise DataOutOfBounds(PC0, I + 2) is latched and nothing else
changes. (R154.) -/
def Obligations.BcdStoresThreeDigits : Prop :=
  ∀ (x : Nibble) (s : State), DecodesTo (0xF033 + 256 * x.toNat) (.ldB x) ∧
    (s.i.toNat + 2 ≤ 4095 → ∃ t, exec (.ldB x) s = .next t ∧
      (t.mem.read s.i.toNat).toNat = (s.getV x).toNat / 100 ∧
      (t.mem.read (s.i.toNat + 1)).toNat = (s.getV x).toNat / 10 % 10 ∧
      (t.mem.read (s.i.toNat + 2)).toNat = (s.getV x).toNat % 10 ∧
      (∀ a, a < s.i.toNat ∨ s.i.toNat + 2 < a → t.mem.read a = s.mem.read a) ∧
      UnchangedExcept [.mem] s t) ∧
    (4095 < s.i.toNat + 2 → ∃ t, exec (.ldB x) s = .next t ∧
      t.fault = some (.dataOutOfBounds (s.pc - 2) (s.i.toNat + 2)) ∧ UnchangedExcept [.fault] s t)

/-- The word 0xF055 + 256x. If I + x ≤ 4095 exec answers a next state in which the byte at I + j is Vj for j ≤ x and every
other byte and element, I included, is as before; otherwise DataOutOfBounds(PC0, I + x) is latched and nothing else
changes. (R155.) -/
def Obligations.StoreRegistersWritesV0ToVx : Prop :=
  ∀ (x : Nibble) (s : State), DecodesTo (0xF055 + 256 * x.toNat) (.ldMemVx x) ∧
    (s.i.toNat + x.toNat ≤ 4095 → ∃ t, exec (.ldMemVx x) s = .next t ∧
      (∀ j : Nibble, j.toNat ≤ x.toNat → t.mem.read (s.i.toNat + j.toNat) = s.getV j) ∧
      (∀ a, a < s.i.toNat ∨ s.i.toNat + x.toNat < a → t.mem.read a = s.mem.read a) ∧
      UnchangedExcept [.mem] s t) ∧
    (4095 < s.i.toNat + x.toNat → ∃ t, exec (.ldMemVx x) s = .next t ∧
      t.fault = some (.dataOutOfBounds (s.pc - 2) (s.i.toNat + x.toNat)) ∧
      UnchangedExcept [.fault] s t)

/-- The word 0xF065 + 256x. If I + x ≤ 4095 exec answers a next state in which Vj is the byte at I + j for j ≤ x, the
registers above Vx and every other element are as before; otherwise DataOutOfBounds(PC0, I + x) is latched and nothing
else changes. (R156.) -/
def Obligations.LoadRegistersReadsV0ToVx : Prop :=
  ∀ (x : Nibble) (s : State), DecodesTo (0xF065 + 256 * x.toNat) (.ldVxMem x) ∧
    (s.i.toNat + x.toNat ≤ 4095 → ∃ t, exec (.ldVxMem x) s = .next t ∧
      (∀ j : Nibble, t.getV j =
        if j.toNat ≤ x.toNat then s.mem.read (s.i.toNat + j.toNat) else s.getV j) ∧
      UnchangedExcept [.v] s t) ∧
    (4095 < s.i.toNat + x.toNat → ∃ t, exec (.ldVxMem x) s = .next t ∧
      t.fault = some (.dataOutOfBounds (s.pc - 2) (s.i.toNat + x.toNat)) ∧
      UnchangedExcept [.fault] s t)

/-- The word 0x00E0; for every state exec answers a next state in which no cell, on the grid or off it, is lit, with VF
and every other element as before. (R170.) -/
def Obligations.ClearEmptiesTheDisplay : Prop :=
  DecodesTo 0x00E0 .cls ∧
  ∀ s : State, ∃ t, exec .cls s = .next t ∧ (∀ p, t.disp.lit p = false) ∧ UnchangedExcept [.disp] s t

/-- The word 0xD000 + 256x + 16y + n. If n = 0 or I + n − 1 ≤ 4095, exec answers a next state in which a cell is lit
exactly when one of "lit before" and "a set bit of the sprite, at natural-number coordinates from the sampled origin"
holds, VF is 1 if some sprite cell was lit before and else 0, and every other register and element is as before.
Otherwise DataOutOfBounds(PC0, I + n − 1) is latched and nothing else changes. (R171.) -/
def Obligations.DrawTogglesTheSpriteCells : Prop :=
  ∀ (x y n : Nibble) (s : State),
    DecodesTo (0xD000 + 256 * x.toNat + 16 * y.toNat + n.toNat) (.drw x y n) ∧
    (n.toNat = 0 ∨ s.i.toNat + n.toNat - 1 ≤ 4095 → ∃ t, exec (.drw x y n) s = .next t ∧
      (∀ p, t.disp.lit p = true ↔ ¬ (s.disp.lit p = true ↔ InSprite x y n s p)) ∧
      ((∃ p, InSprite x y n s p ∧ s.disp.lit p = true) → t.getV 15 = 1) ∧
      ((¬ ∃ p, InSprite x y n s p ∧ s.disp.lit p = true) → t.getV 15 = 0) ∧
      RegsUnchangedExcept [15] s t ∧ UnchangedExcept [.v, .disp] s t) ∧
    (1 ≤ n.toNat → 4095 < s.i.toNat + n.toNat - 1 → ∃ t, exec (.drw x y n) s = .next t ∧
      t.fault = some (.dataOutOfBounds (s.pc - 2) (s.i.toNat + n.toNat - 1)) ∧
      UnchangedExcept [.fault] s t)

/-- If one draw completes and a later state has the display it left, the same I, sprite bytes, Vx and Vy, then the same
draw there answers a state whose lit cells are those before the first draw, with VF 1 if some cell of the sprite was
unlit before the first draw, so that the second one meets it lit, and else 0. The VF clause is DEDUCED from the
algorithm of R171 (log entry 16) and sets aside R172's own sentence "VF after the second is 1 exactly when S is not
empty", which differs where every cell of the sprite was lit before the first draw. The display clause agrees with
R172 and with R171. (44_display.md R171, 95_test_vectors.md E5.) -/
def Obligations.DrawingTwiceErases : Prop :=
  ∀ (x y n : Nibble) (s t u : State),
    (n.toNat = 0 ∨ s.i.toNat + n.toNat - 1 ≤ 4095) → exec (.drw x y n) s = .next t →
    u.disp = t.disp → u.i = s.i → u.getV x = s.getV x → u.getV y = s.getV y →
    (∀ row, row < n.toNat → u.mem.read (s.i.toNat + row) = s.mem.read (s.i.toNat + row)) →
    ∃ w, exec (.drw x y n) u = .next w ∧ (∀ p, w.disp.lit p = s.disp.lit p) ∧
      ((∃ p, InSprite x y n s p ∧ s.disp.lit p = false) → w.getV 15 = 1) ∧
      ((¬ ∃ p, InSprite x y n s p ∧ s.disp.lit p = false) → w.getV 15 = 0)

/-- R172 adds to its law: "VF after the second is 1 exactly when S is not empty". This states the half from S not empty to
VF = 1. It is EXPECTED TO FAIL, against the algorithm of R171 and the law of R172 themselves: where every cell of the
sprite is lit before the first draw, the first erases them all and the second meets none lit (log entry 16).
(44_display.md R172.) -/
def Obligations.SecondDrawOfANonEmptySpriteCollides : Prop :=
  ∀ (x y n : Nibble) (s t u w : State),
    (n.toNat = 0 ∨ s.i.toNat + n.toNat - 1 ≤ 4095) → exec (.drw x y n) s = .next t →
    u.disp = t.disp → u.i = s.i → u.getV x = s.getV x → u.getV y = s.getV y →
    (∀ row, row < n.toNat → u.mem.read (s.i.toNat + row) = s.mem.read (s.i.toNat + row)) →
    exec (.drw x y n) u = .next w → (∃ p, InSprite x y n s p) → w.getV 15 = 1

/-- The words 0xE09E and 0xE0A1 + 256x; for every state and KEYS each answers a next state whose PC is 2 further exactly
when its condition holds, with KEYS and every other element as before. (R180, R181.) -/
def Obligations.KeySkipsTestTheLatch : Prop :=
  ∀ (x : Nibble) (s : State),
    DecodesTo (0xE09E + 256 * x.toNat) (.skp x) ∧ DecodesTo (0xE0A1 + 256 * x.toNat) (.sknp x) ∧
    (∃ t, exec (.skp x) s = .next t ∧ UnchangedExcept [.pc] s t ∧ t.pc =
      if (s.getV x).toNat < 16 ∧ s.keys.getLsbD (s.getV x).toNat = true then s.pc + 2 else s.pc) ∧
    (∃ t, exec (.sknp x) s = .next t ∧ UnchangedExcept [.pc] s t ∧ t.pc =
      if (s.getV x).toNat < 16 ∧ s.keys.getLsbD (s.getV x).toNat = true then s.pc else s.pc + 2)

/-- The word 0xF00A + 256x. With KEYS empty exec answers a next state with PC − 2 and nothing else changed. With KEYS not
empty it answers a next state in which Vx is the code of some pressed key, every other register and element as before;
with one key down that is the key. Which of several is a free choice (log entry 4); nothing is claimed of it. (R182.) -/
def Obligations.KeyWaitRetriesOrReportsAPressedKey : Prop :=
  ∀ (x : Nibble) (s : State), DecodesTo (0xF00A + 256 * x.toNat) (.ldVxK x) ∧
    (s.keys = 0 → ∃ t, exec (.ldVxK x) s = .next t ∧ t.pc = s.pc - 2 ∧ UnchangedExcept [.pc] s t) ∧
    (s.keys ≠ 0 → ∃ t, exec (.ldVxK x) s = .next t ∧
      (t.getV x).toNat < 16 ∧ s.keys.getLsbD (t.getV x).toNat = true ∧
      RegsUnchangedExcept [x] s t ∧ UnchangedExcept [.v, .draws] s t)

/-- The words 0xF007, 0xF015, 0xF018 + 256x; for every state each answers a next state with that one value moved and every
other register and element as before. (R183, R184, R185.) -/
def Obligations.TimerInstructionsMoveTimerValues : Prop :=
  ∀ (x : Nibble) (s : State),
    DecodesTo (0xF007 + 256 * x.toNat) (.ldVxDt x) ∧ DecodesTo (0xF015 + 256 * x.toNat) (.ldDtVx x) ∧
    DecodesTo (0xF018 + 256 * x.toNat) (.ldStVx x) ∧
    (∃ t, exec (.ldVxDt x) s = .next t ∧
      (∀ j, t.getV j = if j = x then s.dt else s.getV j) ∧ UnchangedExcept [.v] s t) ∧
    (∃ t, exec (.ldDtVx x) s = .next t ∧ t.dt = s.getV x ∧ UnchangedExcept [.dt] s t) ∧
    (∃ t, exec (.ldStVx x) s = .next t ∧ t.st = s.getV x ∧ UnchangedExcept [.st] s t)

/-- If exec i answers a next state: with the fault latch as before, every element outside i's list, every register outside
its destinations, and every byte outside the accessed bytes at I is as before; with the latch changed, nothing but the
latch changed. Memory is on the list of Fx33 and Fx55 only, STACK of 2nnn and 00EE, DISP of 00E0 and Dxyn, I of Annn,
Fx1E and Fx29, DT of Fx15, ST of Fx18; RUN and KEYS on none. (10_state.md R21, R25 to R28, R30, R33, R34, 20_memory.md
R53, R57, 43_index_memory.md R150.) -/
def Obligations.EveryInstructionKeepsTheRest : Prop :=
  ∀ (i : Instr) (s t : State), exec i s = .next t →
    (t.fault = s.fault → UnchangedExcept i.writes s t ∧ RegsUnchangedExcept i.destinations s t ∧
      ∀ a, a < s.i.toNat ∨ s.i.toNat + i.accessCount ≤ a → t.mem.read a = s.mem.read a) ∧
    (t.fault ≠ s.fault → UnchangedExcept [.fault] s t)

/-- If a step of a running core leaves a fault, then it is FetchOutOfBounds(PC) with PC > 0xFFE, or StackUnderflow(PC) at
a 00EE with STACK empty, or StackOverflow(PC) at a 2nnn with STACK at STACK_LIMIT, or DataOutOfBounds(PC, I + k − 1)
at an instruction that accesses k ≥ 1 bytes from I with I + k − 1 > 4095. PC is that before the step, PC0.
(60_exceptions.md R200, R207.) -/
def Obligations.FaultsOccurOnlyAsListed : Prop :=
  ∀ (s t : State) (f : Fault), Running s → step s = .next t → t.fault = some f →
    (0xFFE < s.pc.toNat ∧ f = .fetchOutOfBounds s.pc) ∨
    (AtInstr .ret s ∧ s.stack = [] ∧ f = .stackUnderflow s.pc) ∨
    (∃ nnn, AtInstr (.call nnn) s ∧ s.stackLimit = some s.stack.length ∧ f = .stackOverflow s.pc) ∨
    (∃ i, AtInstr i s ∧ 1 ≤ i.accessCount ∧ 4095 < s.i.toNat + i.accessCount - 1 ∧
      f = .dataOutOfBounds s.pc (s.i.toNat + i.accessCount - 1))

/-- If a step of a running core leaves a fault, every element but FAULT and PC is as before (the hasRun mark, log entry 6,
aside); PC is unchanged for a fault of the fetch and advanced by 2 for every other. (60_exceptions.md R201 to R204,
R208.) -/
def Obligations.FaultsArePrecise : Prop :=
  ∀ s t : State, Running s → step s = .next t → t.fault ≠ none →
    UnchangedExcept [.fault, .pc, .hasRun] s t ∧
    (if 0xFFE < s.pc.toNat then t.pc = s.pc else t.pc.toNat = s.pc.toNat + 2)

/-- If a step changes DT, the core was running at an Fx15 and DT is its Vx; if it changes ST, the core was running at an
Fx18 and ST is its Vx. (40_execution_engine.md R99, 10_state.md R27.) -/
def Obligations.StepMovesTimersOnlyByTimerInstructions : Prop :=
  ∀ s t : State, step s = .next t →
    (t.dt ≠ s.dt → Running s ∧ ∃ x, AtInstr (.ldDtVx x) s ∧ t.dt = s.getV x) ∧
    (t.st ≠ s.st → Running s ∧ ∃ x, AtInstr (.ldStVx x) s ∧ t.st = s.getV x)

/-- If a step answers a next state, RUN, KEYS and STACK_LIMIT are as before. That KEYS and STACK_LIMIT stand in the state
is the model's choice (log entries 2 and 5). (10_state.md R28, R30, 00_scope.md R6.) -/
def Obligations.StepNeverWritesRunOrInputs : Prop :=
  ∀ s t : State, step s = .next t →
    t.run = s.run ∧ t.keys = s.keys ∧ t.stackLimit = s.stackLimit

/-- If 2nnn answers t without a fault, then at any later state u with the STACK that t has, 00EE answers a next state with
PC the one 2nnn saved, PC0 + 2, and the STACK from before the call. Registers, I, timers and DISP are as before across
each of the two. (R119.) -/
def Obligations.CallThenReturnComesBack : Prop :=
  ∀ (nnn : Addr12) (s : State), s.stackLimit ≠ some s.stack.length →
    ∃ t, exec (.call nnn) s = .next t ∧ UnchangedExcept [.pc, .stack] s t ∧
      ∀ u : State, u.stack = t.stack →
        ∃ w, exec .ret u = .next w ∧ w.pc = s.pc ∧ w.stack = s.stack ∧ UnchangedExcept [.pc, .stack] u w

/-- A running core at Fx55 or Fx33, PC already advanced to PC0 + 2. If Fx55 stores Vj at PC and V(j+1) at PC + 1, the next
step runs the instruction those two bytes decode to, or is a no-operation if they are none. If Fx33 stores two digits
there, they are none for any Vx, and the next step is a no-operation. A step also sets the model's own mark hasRun
(log entry 6), which is no element of the spec. (R241.) -/
def Obligations.NextStepRunsTheStoredBytes : Prop :=
  ∀ (x : Nibble) (s : State), Running s →
    (∀ j : Nibble, j.toNat < x.toNat → s.i.toNat + j.toNat = s.pc.toNat → s.i.toNat + x.toNat ≤ 4095 →
      ∃ t, exec (.ldMemVx x) s = .next t ∧
        (∀ i, decode [s.getV j, s.getV (j + 1)] = .ok (i, []) →
          step t = exec i { t with pc := s.pc + 2, hasRun := true }) ∧
        (∀ e, decode [s.getV j, s.getV (j + 1)] = .error e →
          step t = .next { t with pc := s.pc + 2, hasRun := true })) ∧
    (∀ k, k < 2 → s.i.toNat + k = s.pc.toNat → s.i.toNat + 2 ≤ 4095 →
      ∃ t, exec (.ldB x) s = .next t ∧
        (t.mem.read s.pc.toNat).toNat = (s.getV x).toNat / 10 ^ (2 - k) % 10 ∧
        (t.mem.read (s.pc.toNat + 1)).toNat = (s.getV x).toNat / 10 ^ (1 - k) % 10 ∧
        step t = .next { t with pc := s.pc + 2, hasRun := true })

/-- On a faulted or Paused core cycle changes nothing (the hasRun mark, log entry 6, aside). On a running one: if u 0 is
the state and each of ten steps from u k answers u (k + 1) without a fault, cycle answers u 10 with each timer one
lower, or still 0, and nothing else changed. If the first n < 10 of those leave no fault and the next one leaves one,
cycle answers the state that step left. (R98, R101.) -/
def Obligations.CycleIsTenStepsThenOneTick : Prop :=
  ∀ s : State,
    (¬ Running s → ∃ t, cycle s = .next t ∧ UnchangedExcept [.hasRun] s t) ∧
    (Running s → ∀ u : Nat → State, u 0 = s →
      ((∀ k, k < 10 → step (u k) = .next (u (k + 1)) ∧ (u (k + 1)).fault = none) →
        ∃ t, cycle s = .next t ∧ t.dt.toNat = (u 10).dt.toNat - 1 ∧ t.st.toNat = (u 10).st.toNat - 1 ∧
          UnchangedExcept [.dt, .st] (u 10) t) ∧
      (∀ n, n < 10 → (∀ k, k < n → step (u k) = .next (u (k + 1)) ∧ (u (k + 1)).fault = none) →
        step (u n) = .next (u (n + 1)) → (u (n + 1)).fault ≠ none → cycle s = .next (u (n + 1))))

/-- From every state, running, Paused or faulted, cycle answers a next state in which RUN, KEYS and STACK_LIMIT are as
before and the model's mark hasRun is set. How many steps ran, and whether a tick followed, is not said here. The
model's own: that KEYS and STACK_LIMIT stand in the state (log entries 2 and 5), the mark hasRun, set also when
nothing ran (log entry 6, DEDUCED), and that a latched fault is a next state (log entry 1). (40_execution_engine.md
R92, R98, R100, R101, 60_exceptions.md R216, 10_state.md R28, R30.) -/
def Obligations.CycleAlwaysAnswersNext : Prop :=
  ∀ s : State, ∃ t, cycle s = .next t ∧
    t.run = s.run ∧ t.keys = s.keys ∧ t.stackLimit = s.stackLimit ∧ t.hasRun = true

/-- timer_tick leaves DT and ST one lower where they were above 0 and at 0 where they were 0 (never 255), and every other
element as before. (40_execution_engine.md R99, 10_state.md R27.) -/
def Obligations.TimerTickCountsDownToZero : Prop :=
  ∀ s : State,
    (timerTick s).dt.toNat = s.dt.toNat - 1 ∧ (timerTick s).st.toNat = s.st.toNat - 1 ∧
    UnchangedExcept [.dt, .st] s (timerTick s)

/-- With no fault latched toggle_pause turns Playing into Paused and Paused into Playing with every other element as
before, so twice restores the state; with a fault latched it answers the same state. (R102.) -/
def Obligations.TogglePauseFlipsRunOnly : Prop :=
  ∀ s : State,
    (s.fault = none → (s.run = .playing → (togglePause s).run = .paused) ∧
      (s.run = .paused → (togglePause s).run = .playing) ∧
      UnchangedExcept [.run] s (togglePause s) ∧ togglePause (togglePause s) = s) ∧
    (s.fault ≠ none → togglePause s = s)

/-- From every state, initialize leaves every memory byte 0, every register 0, I = 0, PC = 0x200, STACK empty, DT = ST =
0, DISP empty, RUN Playing, FAULT none, and KEYS as it was. State.reset has the same elements. (R40, R230.) -/
def Obligations.InitializeGivesTheResetState : Prop :=
  ∀ s : State, (initialise s).keys = s.keys ∧ ∀ t, t = initialise s ∨ t = State.reset →
    (∀ a, t.mem.read a = 0) ∧ (∀ j, t.getV j = 0) ∧ t.i = 0 ∧ t.pc = 0x200 ∧ t.stack = [] ∧
    t.dt = 0 ∧ t.st = 0 ∧ t.disp = [] ∧ t.run = .playing ∧ t.fault = none

/-- With no step or cycle invoked yet and no fault, load_font answers a next state in which byte k is the k-th byte of the
table for k < 80 and every other byte and element is as before. That no step or cycle was invoked is read from the
model's mark hasRun (log entry 6). (70_reset_and_hazards.md R231, R234.) -/
def Obligations.LoadFontWritesTheGlyphTable : Prop :=
  ∀ (font : Vector Byte 80) (s : State), s.hasRun = false → s.fault = none →
    ∃ t, loadFont font s = .next t ∧ (∀ (k : Nat) (h : k < 80), t.mem.read k = font[k]) ∧
      (∀ a, 80 ≤ a → t.mem.read a = s.mem.read a) ∧ UnchangedExcept [.mem] s t

/-- With no step or cycle invoked yet and no fault: a program of at most 3584 bytes is written verbatim from 0x200, every
other byte and element, FAULT included, as before; a longer one is refused under its own name, which carries no state,
so nothing changes. That no step or cycle was invoked is read from the model's mark hasRun (log entry 6). (R232, R66.) -/
def Obligations.LoadProgramWritesOrRefuses : Prop :=
  ∀ (bytes : List Byte) (s : State), s.hasRun = false → s.fault = none →
    (bytes.length ≤ 3584 → ∃ t, loadProgram bytes s = .next t ∧
      (∀ (k : Nat) (h : k < bytes.length), t.mem.read (0x200 + k) = bytes[k]) ∧
      (∀ a, a < 0x200 ∨ 0x200 + bytes.length ≤ a → t.mem.read a = s.mem.read a) ∧
      UnchangedExcept [.mem] s t) ∧
    (3584 < bytes.length → loadProgram bytes s = .refused (.programTooLong bytes.length))

/-- The state a step or cycle answers has the boot window closed, and every operation but initialize keeps it closed; with
it closed load_font and load_program are refused. Initialize from any state gives the elements of R40 with the boot
window open, so loads are accepted again. That a step or cycle on a Paused or faulted core, which runs nothing, closes
the boot window too is the model's deduction (log entry 6, DEDUCED), as is the mark hasRun itself: R234 says that
loads after the first step or cycle are refused and does not name that case. (70_reset_and_hazards.md R234,
10_state.md R40.) -/
def Obligations.LoadsAreRefusedAfterTheFirstStep : Prop :=
  (∀ s t : State, step s = .next t ∨ cycle s = .next t → t.hasRun = true) ∧
  (∀ (op : Operation) (s t : State), s.hasRun = true → op ≠ .initialise → perform op s = .next t →
    t.hasRun = true) ∧
  (∀ s : State, s.hasRun = true →
    (∀ font, ∃ r, perform (.loadFont font) s = .refused r) ∧
    (∀ bytes, ∃ r, perform (.loadProgram bytes) s = .refused r)) ∧
  (∀ s : State, ∃ t, perform .initialise s = .next t ∧
    (∀ a, t.mem.read a = 0) ∧ (∀ j, t.getV j = 0) ∧ t.i = 0 ∧ t.pc = 0x200 ∧ t.stack = [] ∧
    t.dt = 0 ∧ t.st = 0 ∧ t.disp = [] ∧ t.run = .playing ∧ t.fault = none ∧
    (∀ font, ∃ u, perform (.loadFont font) t = .next u) ∧
    (∀ bytes, bytes.length ≤ 3584 → ∃ u, perform (.loadProgram bytes) t = .next u))

/-- From every state, with a program of L ≤ 3584 bytes: MEM[0x000..0x04F] is the font, MEM[0x050..0x1FF] is 0, MEM[0x200 +
k] is the program's k-th byte, the rest is 0, and every other element has its reset value. (R41.) -/
def Obligations.BootSequenceLaysOutMemory : Prop :=
  ∀ (font : Vector Byte 80) (bytes : List Byte) (s : State), bytes.length ≤ 3584 →
    ∀ ops, ops = [Operation.initialise, .loadFont font, .loadProgram bytes] ∨
        ops = [Operation.initialise, .loadProgram bytes, .loadFont font] →
      ∃ t, performAll ops s = .next t ∧
        (∀ (k : Nat) (h : k < 80), t.mem.read k = font[k]) ∧
        (∀ a, 0x050 ≤ a → a < 0x200 → t.mem.read a = 0) ∧
        (∀ (k : Nat) (h : k < bytes.length), t.mem.read (0x200 + k) = bytes[k]) ∧
        (∀ a, 0x200 + bytes.length ≤ a → t.mem.read a = 0) ∧
        (∀ j, t.getV j = 0) ∧ t.i = 0 ∧ t.pc = 0x200 ∧ t.stack = [] ∧ t.dt = 0 ∧ t.st = 0 ∧
        t.disp = [] ∧ t.run = .playing ∧ t.fault = none

/-- At State.reset memory and DISP are canonical and in range, PC and STACK are in range, STACK is within STACK_LIMIT, and
no fault is latched. The canonical forms are the model's own (log entry 11). (10_state.md R40.) -/
def Obligations.ResetMeetsEveryInvariant : Prop :=
  Inv State.reset

/-- From every state with canonical memory, whatever else holds, the state a step answers has canonical memory: in
particular no step ever writes an address above 0xFFF. The canonical form is the model's own (log entry 11).
(20_memory.md R50, R53, 10_state.md R35.) -/
def Obligations.StepKeepsMemoryCanonical : Prop :=
  ∀ s t : State, MemoryCanonical s → step s = .next t → MemoryCanonical t

/-- From every state whose DISP is strictly rising and within cx ≤ 262, cy ≤ 269, the state a step answers has such a
DISP. The rising list is the model's own form of the set (log entry 11). (44_display.md R173, 10_state.md R34.) -/
def Obligations.StepKeepsDisplayCanonical : Prop :=
  ∀ s t : State, DisplayCanonical s → step s = .next t → DisplayCanonical t

/-- From every state with PC ≤ 0x10FE and stack entries in 0x002..0x1000, the state a step answers has both: PC never
wraps around 16 bits. (10_state.md R24, 41_control_flow.md R110, R112, R117.) -/
def Obligations.StepKeepsPcAndStackInRange : Prop :=
  ∀ s t : State, ControlInRange s → step s = .next t → ControlInRange t

/-- From every state whose STACK has at most STACK_LIMIT entries where that is set, the state a step answers has at most
that many. (00_scope.md R6, 41_control_flow.md R112.) -/
def Obligations.StepKeepsStackWithinLimit : Prop :=
  ∀ s t : State, StackWithinLimit s → step s = .next t → StackWithinLimit t

/-- From every state that meets the invariants, whatever operation is performed (initialize, a load of any bytes, step or
cycle with any KEYS, toggle_pause), the state it answers meets them. The canonical forms and the mark hasRun are the
model's own (log entries 11 and 6). (40_execution_engine.md R90, 10_state.md R24, R35, 44_display.md R173,
70_reset_and_hazards.md R234.) -/
def Obligations.EveryOperationKeepsTheInvariants : Prop :=
  ∀ (op : Operation) (s t : State), Inv s → perform op s = .next t → Inv t

/-- The canonical forms decide equality: equal contents are equal data, for memory through its reads and for DISP through
the predicate lit. The list forms, and so their uniqueness, are the model's own (log entry 11, DESIGN CHOICE). The
spec gives what they hold, an array of bytes and a set of cells, and no representation. (10_state.md R34, R35.) -/
def Obligations.CanonicalFormsAreUnique : Prop :=
  (∀ m m' : Memory, m.wf → m'.wf → (∀ a, m.read a = m'.read a) → m = m') ∧
  (∀ d d' : Display, d.wf → d'.wf → (∀ p, d.lit p = d'.lit p) → d = d')
end

