-- ==== Sys2Proof/Laws/Decode.lean ====
section
/-! SUPPORT. The fields of a word as numbers, the fields of an encoded word, and the masks of the opcode map
(30_encoding.md R71, R74). -/

namespace Sys2Proof

theorem toNat_fieldOp (w : Word) : (fieldOp w).toNat = w.toNat / 4096 % 16 := by
  simp [fieldOp, BitVec.extractLsb'_toNat, Nat.shiftRight_eq_div_pow]

theorem toNat_fieldX (w : Word) : (fieldX w).toNat = w.toNat / 256 % 16 := by
  simp [fieldX, BitVec.extractLsb'_toNat, Nat.shiftRight_eq_div_pow]

theorem toNat_fieldY (w : Word) : (fieldY w).toNat = w.toNat / 16 % 16 := by
  simp [fieldY, BitVec.extractLsb'_toNat, Nat.shiftRight_eq_div_pow]

theorem toNat_fieldN (w : Word) : (fieldN w).toNat = w.toNat % 16 := by
  simp [fieldN, BitVec.extractLsb'_toNat]

theorem toNat_fieldNN (w : Word) : (fieldNN w).toNat = w.toNat % 256 := by
  simp [fieldNN, BitVec.extractLsb'_toNat]

theorem toNat_fieldNNN (w : Word) : (fieldNNN w).toNat = w.toNat % 4096 := by
  simp [fieldNNN, BitVec.extractLsb'_toNat]

/-- The two bytes of a word, high byte first, make the word again (20_memory.md R55). -/
@[simp] theorem wordOfBytes_high_low (w : Word) : wordOfBytes (highByte w) (lowByte w) = w := by
  have := w.isLt
  apply BitVec.eq_of_toNat_eq
  simp only [wordOfBytes, highByte, lowByte, BitVec.toNat_ofNat, BitVec.extractLsb'_toNat, Nat.shiftRight_eq_div_pow]
  omega

theorem toNat_wordOfBytes (hi lo : Byte) : (wordOfBytes hi lo).toNat = hi.toNat * 256 + lo.toNat := by
  have := hi.isLt
  have := lo.isLt
  simp only [wordOfBytes, BitVec.toNat_ofNat]
  omega

/-! ## Encoded words as numbers -/

theorem toNat_encodeNNN {op : Nat} (h : op < 16) (nnn : Addr12) :
    (encodeNNN op nnn).toNat = op * 4096 + nnn.toNat := by
  have := nnn.isLt
  simp only [encodeNNN, BitVec.toNat_ofNat]
  omega

theorem toNat_encodeXNN {op nn : Nat} (h : op < 16) (x : Nibble) (h' : nn < 256) :
    (encodeXNN op x nn).toNat = op * 4096 + 256 * x.toNat + nn := by
  have := x.isLt
  simp only [encodeXNN, BitVec.toNat_ofNat]
  omega

theorem toNat_encodeXYN {op n : Nat} (h : op < 16) (x y : Nibble) (h' : n < 16) :
    (encodeXYN op x y n).toNat = op * 4096 + 256 * x.toNat + 16 * y.toNat + n := by
  have := x.isLt
  have := y.isLt
  simp only [encodeXYN, BitVec.toNat_ofNat]
  omega

theorem fields_encodeNNN {op : Nat} (h : op < 16) (nnn : Addr12) :
    (fieldOp (encodeNNN op nnn)).toNat = op ∧ fieldNNN (encodeNNN op nnn) = nnn := by
  have := nnn.isLt
  refine ⟨?_, BitVec.eq_of_toNat_eq ?_⟩
  · rw [toNat_fieldOp, toNat_encodeNNN h]; omega
  · rw [toNat_fieldNNN, toNat_encodeNNN h]; omega

theorem fields_encodeXNN {op nn : Nat} (h : op < 16) (x : Nibble) (h' : nn < 256) :
    (fieldOp (encodeXNN op x nn)).toNat = op ∧ fieldX (encodeXNN op x nn) = x ∧
      fieldNN (encodeXNN op x nn) = BitVec.ofNat 8 nn := by
  have := x.isLt
  refine ⟨?_, BitVec.eq_of_toNat_eq ?_, BitVec.eq_of_toNat_eq ?_⟩
  · rw [toNat_fieldOp, toNat_encodeXNN h x h']; omega
  · rw [toNat_fieldX, toNat_encodeXNN h x h']; omega
  · rw [toNat_fieldNN, toNat_encodeXNN h x h', BitVec.toNat_ofNat]; omega

theorem fields_encodeXYN {op n : Nat} (h : op < 16) (x y : Nibble) (h' : n < 16) :
    (fieldOp (encodeXYN op x y n)).toNat = op ∧ fieldX (encodeXYN op x y n) = x ∧
      fieldY (encodeXYN op x y n) = y ∧ fieldN (encodeXYN op x y n) = BitVec.ofNat 4 n := by
  have := x.isLt
  have := y.isLt
  refine ⟨?_, BitVec.eq_of_toNat_eq ?_, BitVec.eq_of_toNat_eq ?_, BitVec.eq_of_toNat_eq ?_⟩
  · rw [toNat_fieldOp, toNat_encodeXYN h x y h']; omega
  · rw [toNat_fieldX, toNat_encodeXYN h x y h']; omega
  · rw [toNat_fieldY, toNat_encodeXYN h x y h']; omega
  · rw [toNat_fieldN, toNat_encodeXYN h x y h', BitVec.toNat_ofNat]; omega

/-! ## The masks of the opcode map -/

theorem toNat_and_F000 (w : Word) : (w &&& 0xF000#16).toNat = w.toNat / 4096 * 4096 := by
  have h : w &&& 0xF000#16 = (w >>> 12) <<< 12 := by
    ext i hi
    interval_cases i <;> simp
  have := w.isLt
  rw [h, BitVec.toNat_shiftLeft, BitVec.toNat_ushiftRight, Nat.shiftRight_eq_div_pow, Nat.shiftLeft_eq]
  omega

theorem toNat_and_F00F (w : Word) : (w &&& 0xF00F#16).toNat = w.toNat / 4096 * 4096 + w.toNat % 16 := by
  have h : w &&& 0xF00F#16 = (w &&& 0xF000#16) ||| (w &&& 0xF#16) := by
    ext i hi
    interval_cases i <;> simp
  have h0 : (w &&& 0xF000#16) &&& (w &&& 0xF#16) = 0#16 := by
    ext i hi
    interval_cases i <;> simp
  have := w.isLt
  have hm : (w &&& 0xF#16).toNat = w.toNat % 16 := by
    simpa [BitVec.toNat_and] using Nat.and_two_pow_sub_one_eq_mod w.toNat 4
  rw [h, ← BitVec.add_eq_or_of_and_eq_zero _ _ h0, BitVec.toNat_add, toNat_and_F000, hm]
  omega

theorem toNat_and_F0FF (w : Word) : (w &&& 0xF0FF#16).toNat = w.toNat / 4096 * 4096 + w.toNat % 256 := by
  have h : w &&& 0xF0FF#16 = (w &&& 0xF000#16) ||| (w &&& 0xFF#16) := by
    ext i hi
    interval_cases i <;> simp
  have h0 : (w &&& 0xF000#16) &&& (w &&& 0xFF#16) = 0#16 := by
    ext i hi
    interval_cases i <;> simp
  have := w.isLt
  have hm : (w &&& 0xFF#16).toNat = w.toNat % 256 := by
    simpa [BitVec.toNat_and] using Nat.and_two_pow_sub_one_eq_mod w.toNat 8
  rw [h, ← BitVec.add_eq_or_of_and_eq_zero _ _ h0, BitVec.toNat_add, toNat_and_F000, hm]
  omega

/-- A row whose mask is the top nibble: the word is in it when its family is the row's. -/
theorem accepts_F000 (op : Nat) (h : op < 16) (w : Word) :
    (Row.mk 0xF000 (BitVec.ofNat 16 (op * 4096))).accepts w = true ↔ w.toNat / 4096 = op := by
  have := w.isLt
  change (w &&& 0xF000#16 == BitVec.ofNat 16 (op * 4096)) = true ↔ _
  rw [beq_iff_eq, ← BitVec.toNat_inj, toNat_and_F000, BitVec.toNat_ofNat]
  omega

/-- A row that fixes the top and the bottom nibble. -/
theorem accepts_F00F (op n : Nat) (h : op < 16) (h' : n < 16) (w : Word) :
    (Row.mk 0xF00F (BitVec.ofNat 16 (op * 4096 + n))).accepts w = true ↔
      w.toNat / 4096 = op ∧ w.toNat % 16 = n := by
  have := w.isLt
  change (w &&& 0xF00F#16 == BitVec.ofNat 16 (op * 4096 + n)) = true ↔ _
  rw [beq_iff_eq, ← BitVec.toNat_inj, toNat_and_F00F, BitVec.toNat_ofNat]
  omega

/-- A row that fixes the top nibble and the bottom byte. -/
theorem accepts_F0FF (op nn : Nat) (h : op < 16) (h' : nn < 256) (w : Word) :
    (Row.mk 0xF0FF (BitVec.ofNat 16 (op * 4096 + nn))).accepts w = true ↔
      w.toNat / 4096 = op ∧ w.toNat % 256 = nn := by
  have := w.isLt
  change (w &&& 0xF0FF#16 == BitVec.ofNat 16 (op * 4096 + nn)) = true ↔ _
  rw [beq_iff_eq, ← BitVec.toNat_inj, toNat_and_F0FF, BitVec.toNat_ofNat]
  omega

/-- The decoder rejects a word under one name, with the word (R76). -/
theorem decodeWord_error {w : Word} {e : DecodeReject} (h : decodeWord w = .error e) : e = .unrecognised w := by
  unfold decodeWord decodeFamily8 decodeFamilyF at h
  dsimp only at h
  repeat' split at h
  all_goals simp_all

end Sys2Proof
end

