-- ==== Sys2Proof/Laws/Display.lean ====
section
/-! SUPPORT. The laws of the display: lighting and erasing a cell, the cells of a sprite, the draw as a symmetric difference
(44_display.md R171 to R173), the canonical form. -/

namespace Sys2Proof.Machine

@[simp] theorem Display.lit_nil (p : Pixel) : Display.lit [] p = false := rfl

theorem Display.mem_place (p : Pixel) (d : Display) (q : Pixel) : q ∈ Display.place p d ↔ q = p ∨ q ∈ d := by
  induction d with
  | nil => simp [Display.place]
  | cons r d ih =>
    simp only [Display.place]
    split
    · simp
    · simp only [List.mem_cons, ih]; tauto

theorem Display.lit_iff_mem (d : Display) (p : Pixel) : d.lit p = true ↔ p ∈ d := by
  simp [Display.lit]

/-- Toggling flips the one cell and leaves every other (R171). -/
theorem Display.lit_toggle (d : Display) (p q : Pixel) :
    (d.toggle p).lit q = if q = p then !d.lit p else d.lit q := by
  rw [Bool.eq_iff_iff]
  simp only [Display.toggle]
  by_cases hp : d.lit p = true
  · rw [if_pos hp, Display.lit_iff_mem, List.mem_filter]
    by_cases hq : q = p
    · simp [hq, hp]
    · simp [hq, Display.lit_iff_mem]
  · rw [if_neg hp, Display.lit_iff_mem, Display.mem_place]
    by_cases hq : q = p
    · simp [hq, hp]
    · simp [hq, Display.lit_iff_mem]

theorem mem_rowPixels (ox oy : Nat) (b : Byte) (p : Pixel) :
    p ∈ rowPixels ox oy b ↔ ∃ col, col < 8 ∧ p = (ox + col, oy) ∧ b.getLsbD (7 - col) = true := by
  simp only [rowPixels, List.mem_map, List.mem_filter, List.mem_range]
  constructor
  · rintro ⟨col, ⟨h, hb⟩, rfl⟩; exact ⟨col, h, rfl, hb⟩
  · rintro ⟨col, h, rfl, hb⟩; exact ⟨col, ⟨h, hb⟩, rfl⟩

theorem mem_spritePixels (bs : List Byte) (ox oy : Nat) (p : Pixel) :
    p ∈ spritePixels ox oy bs ↔
      ∃ row col, row < bs.length ∧ col < 8 ∧ p = (ox + col, oy + row) ∧
        (bs.getD row 0).getLsbD (7 - col) = true := by
  induction bs generalizing oy with
  | nil => simp [spritePixels]
  | cons b bs ih =>
    simp only [spritePixels, List.mem_append, mem_rowPixels, ih]
    constructor
    · rintro (⟨col, h, rfl, hb⟩ | ⟨row, col, hr, h, rfl, hb⟩)
      · exact ⟨0, col, by simp, h, rfl, by simpa using hb⟩
      · exact ⟨row + 1, col, by simpa using hr, h, by simp; omega, by simpa using hb⟩
    · rintro ⟨row, col, hr, h, rfl, hb⟩
      cases row with
      | zero => exact .inl ⟨col, h, rfl, by simpa using hb⟩
      | succ row => exact .inr ⟨row, col, by simpa using hr, h, by simp; omega, by simpa using hb⟩

theorem nodup_rowPixels (ox oy : Nat) (b : Byte) : (rowPixels ox oy b).Nodup := by
  refine (List.nodup_range.filter _).map ?_
  intro a c h
  simpa using h

/-- The pairs (row, col) give pairwise distinct coordinates (R172). -/
theorem nodup_spritePixels (bs : List Byte) (ox oy : Nat) : (spritePixels ox oy bs).Nodup := by
  induction bs generalizing oy with
  | nil => simp [spritePixels]
  | cons b bs ih =>
    refine List.nodup_append.2 ⟨nodup_rowPixels ox oy b, ih (oy + 1), ?_⟩
    intro p hp q hq
    obtain ⟨_, _, rfl, _⟩ := (mem_rowPixels ..).1 hp
    obtain ⟨_, _, _, _, rfl, _⟩ := (mem_spritePixels ..).1 hq
    simp only [ne_eq, Prod.mk.injEq]
    omega

/-- The loop of Dxyn over distinct cells: each is flipped once, and the flag says whether one was lit (R172). -/
theorem drawPixels_spec (ps : List Pixel) (hps : ps.Nodup) (d : Display) (hit : Bool) :
    (∀ q, ((drawPixels ps (d, hit)).1).lit q = (d.lit q ^^ decide (q ∈ ps))) ∧
      ((drawPixels ps (d, hit)).2 = true ↔ hit = true ∨ ∃ q ∈ ps, d.lit q = true) := by
  induction ps generalizing d hit with
  | nil => simp [drawPixels]
  | cons p ps ih =>
    rw [List.nodup_cons] at hps
    obtain ⟨h1, h2⟩ := ih hps.2 (d.toggle p) (hit || d.lit p)
    refine ⟨fun q => ?_, ?_⟩
    · rw [drawPixels, h1, Display.lit_toggle]
      by_cases hq : q = p
      · subst hq; simp [hps.1]
      · simp [hq]
    · rw [drawPixels, h2]
      have key : (∃ q ∈ ps, (d.toggle p).lit q = true) ↔ ∃ q ∈ ps, d.lit q = true := by
        constructor <;> rintro ⟨q, hq, hl⟩ <;> refine ⟨q, hq, ?_⟩ <;>
          (have hne : q ≠ p := fun e => hps.1 (e ▸ hq)) <;> simpa [Display.lit_toggle, hne] using hl
      rw [key]
      simp [or_assoc]

/-! ## The canonical form -/

theorem pixelBefore_trichotomy {p q : Pixel} (h : ¬ pixelBefore p q) (hne : q ≠ p) : pixelBefore q p := by
  obtain ⟨a, b⟩ := p
  obtain ⟨c, d⟩ := q
  simp only [pixelBefore, ne_eq, Prod.mk.injEq] at *
  omega

theorem pixelBefore_trans {p q r : Pixel} (h : pixelBefore p q) (h' : pixelBefore q r) : pixelBefore p r := by
  simp only [pixelBefore] at *
  omega

theorem Display.pairwise_place (p : Pixel) (d : Display) (h : p ∉ d) (hd : d.Pairwise pixelBefore) :
    (Display.place p d).Pairwise pixelBefore := by
  induction d with
  | nil => simp [Display.place]
  | cons q d ih =>
    rw [List.pairwise_cons] at hd
    simp only [List.mem_cons, not_or] at h
    simp only [Display.place]
    split
    · rename_i hb
      refine List.pairwise_cons.2 ⟨?_, List.pairwise_cons.2 hd⟩
      intro e he
      rcases List.mem_cons.1 he with rfl | he
      · exact hb
      · exact pixelBefore_trans hb (hd.1 e he)
    · rename_i hb
      refine List.pairwise_cons.2 ⟨?_, ih h.2 hd.2⟩
      intro e he
      rcases (Display.mem_place p d e).1 he with rfl | he
      · exact pixelBefore_trichotomy hb (Ne.symm h.1)
      · exact hd.1 e he

/-- Toggling a cell of the coordinate domain keeps the canonical form. -/
theorem Display.wf_toggle {d : Display} (h : d.wf) {p : Pixel} (hp : p.1 ≤ 262 ∧ p.2 ≤ 269) : (d.toggle p).wf := by
  obtain ⟨hd, hb⟩ := h
  simp only [Display.toggle]
  split
  · exact ⟨hd.filter _, fun q hq => hb q (List.mem_filter.1 hq).1⟩
  · rename_i hl
    refine ⟨Display.pairwise_place p d (fun hm => hl ((Display.lit_iff_mem d p).2 hm)) hd, fun q hq => ?_⟩
    rcases (Display.mem_place p d q).1 hq with rfl | hq
    · exact hp
    · exact hb q hq

theorem wf_drawPixels (ps : List Pixel) (hps : ∀ p ∈ ps, p.1 ≤ 262 ∧ p.2 ≤ 269) (d : Display) (hit : Bool)
    (h : d.wf) : (drawPixels ps (d, hit)).1.wf := by
  induction ps generalizing d hit with
  | nil => exact h
  | cons p ps ih =>
    exact ih (fun q hq => hps q (List.mem_cons_of_mem _ hq)) _ _ (Display.wf_toggle h (hps p (by simp)))

/-- A draw of at most 15 rows keeps the canonical form (R173: cx ≤ 255 + 7, cy ≤ 255 + 14). -/
theorem wf_drawSprite (ox oy : Byte) (rows : List Byte) (hr : rows.length ≤ 15) {d : Display} (h : d.wf) :
    (drawSprite ox oy rows d).1.wf := by
  refine wf_drawPixels _ (fun p hp => ?_) d false h
  obtain ⟨row, col, h1, h2, rfl, _⟩ := (mem_spritePixels ..).1 hp
  have := ox.isLt
  have := oy.isLt
  simp only
  omega

end Sys2Proof.Machine
end

