-- ==== Sys2Proof/Laws/Memory.lean ====
section
/-! SUPPORT. The laws of memory: read after write, frames, the canonical form (20_memory.md R53, R58). -/

namespace Sys2Proof.Machine

@[simp] theorem Memory.read_nil (a : Nat) : Memory.read [] a = 0 := rfl

theorem Memory.read_filter (m : Memory) (a c : Nat) :
    Memory.read (m.filter (fun e => e.1 != a)) c = if c = a then 0 else Memory.read m c := by
  induction m with
  | nil => simp
  | cons e m ih =>
    obtain ⟨d, b⟩ := e
    by_cases hd : d = a
    · simp only [hd, bne_self_eq_false, Bool.false_eq_true, not_false_eq_true, List.filter_cons_of_neg, ih, Memory.read]
      split <;> simp_all
      intro h; simp_all
    · simp only [hd, bne_iff_ne, ne_eq, not_false_eq_true, List.filter_cons_of_pos, Memory.read, ih]
      by_cases hc : d = c
      · subst hc; simp [hd]
      · simp [hc]

theorem Memory.read_place (a : Nat) (b : Byte) (m : Memory) (h : ∀ e ∈ m, e.1 ≠ a) (c : Nat) :
    Memory.read (Memory.place a b m) c = if c = a then b else Memory.read m c := by
  induction m with
  | nil => simp [Memory.place, Memory.read, eq_comm, Config.unlistedByte]
  | cons e m ih =>
    obtain ⟨d, x⟩ := e
    have hd : d ≠ a := h (d, x) (by simp)
    have ih := ih (fun e he => h e (List.mem_cons_of_mem _ he))
    simp only [Memory.place]
    split
    · simp only [Memory.read, eq_comm]
    · simp only [Memory.read, ih]
      by_cases hc : d = c
      · subst hc; simp [hd]
      · simp [hc]

/-- Read after write (R53): the written byte reads as written and every other byte as before. -/
theorem Memory.read_write (m : Memory) (a c : Nat) (b : Byte) :
    (m.write a b).read c = if c = a then b else m.read c := by
  have hmem : ∀ e ∈ m.filter (fun e => e.1 != a), e.1 ≠ a := by simp
  simp only [Memory.write]
  split
  · rename_i h
    rw [Memory.read_filter, h]; rfl
  · rw [Memory.read_place a b _ hmem, Memory.read_filter]
    split <;> simp_all

/-- A block write: the bytes at `a`, `a + 1`, ... are the given ones, every other byte is as before. -/
theorem Memory.read_writeBytes (bs : List Byte) (m : Memory) (a c : Nat) :
    (m.writeBytes a bs).read c = if a ≤ c ∧ c < a + bs.length then bs.getD (c - a) 0 else m.read c := by
  induction bs generalizing m a with
  | nil => simp [Memory.writeBytes]
  | cons b bs ih =>
    rw [Memory.writeBytes, ih, Memory.read_write]
    by_cases h1 : c = a
    · subst h1; simp
    · by_cases h2 : a + 1 ≤ c ∧ c < a + 1 + bs.length
      · have h3 : a ≤ c ∧ c < a + (b :: bs).length := by simp; omega
        have h4 : c - a = (c - (a + 1)) + 1 := by omega
        rw [if_pos h2, if_pos h3, h4]; simp
      · have h3 : ¬ (a ≤ c ∧ c < a + (b :: bs).length) := by simp; omega
        rw [if_neg h2, if_neg h3, if_neg h1]

@[simp] theorem Memory.length_readBytes (m : Memory) (a n : Nat) : (m.readBytes a n).length = n := by
  induction n generalizing a with
  | zero => rfl
  | succ n ih => simp [Memory.readBytes, ih]

theorem Memory.getElem?_readBytes (m : Memory) (a n k : Nat) :
    (m.readBytes a n)[k]? = if k < n then some (m.read (a + k)) else none := by
  induction n generalizing a k with
  | zero => simp [Memory.readBytes]
  | succ n ih =>
    cases k with
    | zero => simp [Memory.readBytes]
    | succ k => simp [Memory.readBytes, ih, Nat.add_assoc, Nat.add_comm 1 k]

theorem Memory.getD_readBytes (m : Memory) (a n k : Nat) (h : k < n) :
    (m.readBytes a n).getD k 0 = m.read (a + k) := by
  rw [List.getD_eq_getElem?_getD, Memory.getElem?_readBytes, if_pos h, Option.getD_some]

/-! ## The canonical form -/

theorem Memory.mem_place (a : Nat) (b : Byte) (m : Memory) (e : Host.Cell) :
    e ∈ Memory.place a b m ↔ e = (a, b) ∨ e ∈ m := by
  induction m with
  | nil => simp [Memory.place]
  | cons d m ih =>
    simp only [Memory.place]
    split
    · simp
    · simp only [List.mem_cons, ih]; tauto

theorem Memory.pairwise_place (a : Nat) (b : Byte) (m : Memory) (h : ∀ e ∈ m, e.1 ≠ a)
    (hm : m.Pairwise (fun c d => c.1 < d.1)) : (Memory.place a b m).Pairwise (fun c d => c.1 < d.1) := by
  induction m with
  | nil => simp [Memory.place]
  | cons d m ih =>
    have hd := h d (by simp)
    rw [List.pairwise_cons] at hm
    simp only [Memory.place]
    split
    · rename_i hlt
      refine List.pairwise_cons.2 ⟨?_, List.pairwise_cons.2 hm⟩
      intro e he
      rcases List.mem_cons.1 he with rfl | he
      · exact hlt
      · exact Nat.lt_trans hlt (hm.1 e he)
    · refine List.pairwise_cons.2 ⟨?_, ih (fun e he => h e (List.mem_cons_of_mem _ he)) hm.2⟩
      intro e he
      rcases (Memory.mem_place a b m e).1 he with rfl | he
      · simp only; omega
      · exact hm.1 e he

/-- A write inside the array keeps the canonical form. -/
theorem Memory.wf_write {m : Memory} (h : m.wf) {a : Nat} (ha : a < Config.memSize) (b : Byte) :
    (m.write a b).wf := by
  obtain ⟨hp, hc⟩ := h
  have hf : (m.filter (fun e => e.1 != a)).Pairwise (fun c d => c.1 < d.1) := hp.filter _
  have hne : ∀ e ∈ m.filter (fun e => e.1 != a), e.1 ≠ a := by simp
  simp only [Memory.write]
  split
  · exact ⟨hf, fun c hcm => hc c (List.mem_filter.1 hcm).1⟩
  · rename_i hb
    refine ⟨Memory.pairwise_place a b _ hne hf, fun c hcm => ?_⟩
    rcases (Memory.mem_place a b _ c).1 hcm with rfl | hcm
    · exact ⟨ha, hb⟩
    · exact hc c (List.mem_filter.1 hcm).1

/-- A block write inside the array keeps the canonical form. -/
theorem Memory.wf_writeBytes (bs : List Byte) {m : Memory} (h : m.wf) {a : Nat}
    (ha : a + bs.length ≤ Config.memSize) : (m.writeBytes a bs).wf := by
  induction bs generalizing m a with
  | nil => exact h
  | cons b bs ih =>
    simp only [List.length_cons] at ha
    exact ih (Memory.wf_write h (by omega) b) (by omega)

theorem State.reset_mem_wf : State.reset.mem.wf := by decide

end Sys2Proof.Machine
end

