-- ==== Sys2Proof/Laws/State.lean ====
section
/-! SUPPORT. One lemma per field per update of the state, and how the register and helper updates act on every field. -/

namespace Sys2Proof.Machine

variable (s : State)

@[simp] theorem State.setMem_mem (m : Memory) : (s.setMem m).mem = m := rfl
@[simp] theorem State.setMem_v (m : Memory) : (s.setMem m).v = s.v := rfl
@[simp] theorem State.setMem_i (m : Memory) : (s.setMem m).i = s.i := rfl
@[simp] theorem State.setMem_pc (m : Memory) : (s.setMem m).pc = s.pc := rfl
@[simp] theorem State.setMem_stack (m : Memory) : (s.setMem m).stack = s.stack := rfl
@[simp] theorem State.setMem_dt (m : Memory) : (s.setMem m).dt = s.dt := rfl
@[simp] theorem State.setMem_st (m : Memory) : (s.setMem m).st = s.st := rfl
@[simp] theorem State.setMem_disp (m : Memory) : (s.setMem m).disp = s.disp := rfl
@[simp] theorem State.setMem_run (m : Memory) : (s.setMem m).run = s.run := rfl
@[simp] theorem State.setMem_fault (m : Memory) : (s.setMem m).fault = s.fault := rfl
@[simp] theorem State.setMem_keys (m : Memory) : (s.setMem m).keys = s.keys := rfl
@[simp] theorem State.setMem_draws (m : Memory) : (s.setMem m).draws = s.draws := rfl
@[simp] theorem State.setMem_hasRun (m : Memory) : (s.setMem m).hasRun = s.hasRun := rfl
@[simp] theorem State.setMem_stackLimit (m : Memory) : (s.setMem m).stackLimit = s.stackLimit := rfl

@[simp] theorem State.setVs_mem (w : Vector Byte 16) : (s.setVs w).mem = s.mem := rfl
@[simp] theorem State.setVs_v (w : Vector Byte 16) : (s.setVs w).v = w := rfl
@[simp] theorem State.setVs_i (w : Vector Byte 16) : (s.setVs w).i = s.i := rfl
@[simp] theorem State.setVs_pc (w : Vector Byte 16) : (s.setVs w).pc = s.pc := rfl
@[simp] theorem State.setVs_stack (w : Vector Byte 16) : (s.setVs w).stack = s.stack := rfl
@[simp] theorem State.setVs_dt (w : Vector Byte 16) : (s.setVs w).dt = s.dt := rfl
@[simp] theorem State.setVs_st (w : Vector Byte 16) : (s.setVs w).st = s.st := rfl
@[simp] theorem State.setVs_disp (w : Vector Byte 16) : (s.setVs w).disp = s.disp := rfl
@[simp] theorem State.setVs_run (w : Vector Byte 16) : (s.setVs w).run = s.run := rfl
@[simp] theorem State.setVs_fault (w : Vector Byte 16) : (s.setVs w).fault = s.fault := rfl
@[simp] theorem State.setVs_keys (w : Vector Byte 16) : (s.setVs w).keys = s.keys := rfl
@[simp] theorem State.setVs_draws (w : Vector Byte 16) : (s.setVs w).draws = s.draws := rfl
@[simp] theorem State.setVs_hasRun (w : Vector Byte 16) : (s.setVs w).hasRun = s.hasRun := rfl
@[simp] theorem State.setVs_stackLimit (w : Vector Byte 16) : (s.setVs w).stackLimit = s.stackLimit := rfl

@[simp] theorem State.setI_mem (w : Word) : (s.setI w).mem = s.mem := rfl
@[simp] theorem State.setI_v (w : Word) : (s.setI w).v = s.v := rfl
@[simp] theorem State.setI_i (w : Word) : (s.setI w).i = w := rfl
@[simp] theorem State.setI_pc (w : Word) : (s.setI w).pc = s.pc := rfl
@[simp] theorem State.setI_stack (w : Word) : (s.setI w).stack = s.stack := rfl
@[simp] theorem State.setI_dt (w : Word) : (s.setI w).dt = s.dt := rfl
@[simp] theorem State.setI_st (w : Word) : (s.setI w).st = s.st := rfl
@[simp] theorem State.setI_disp (w : Word) : (s.setI w).disp = s.disp := rfl
@[simp] theorem State.setI_run (w : Word) : (s.setI w).run = s.run := rfl
@[simp] theorem State.setI_fault (w : Word) : (s.setI w).fault = s.fault := rfl
@[simp] theorem State.setI_keys (w : Word) : (s.setI w).keys = s.keys := rfl
@[simp] theorem State.setI_draws (w : Word) : (s.setI w).draws = s.draws := rfl
@[simp] theorem State.setI_hasRun (w : Word) : (s.setI w).hasRun = s.hasRun := rfl
@[simp] theorem State.setI_stackLimit (w : Word) : (s.setI w).stackLimit = s.stackLimit := rfl

@[simp] theorem State.setPc_mem (w : Word) : (s.setPc w).mem = s.mem := rfl
@[simp] theorem State.setPc_v (w : Word) : (s.setPc w).v = s.v := rfl
@[simp] theorem State.setPc_i (w : Word) : (s.setPc w).i = s.i := rfl
@[simp] theorem State.setPc_pc (w : Word) : (s.setPc w).pc = w := rfl
@[simp] theorem State.setPc_stack (w : Word) : (s.setPc w).stack = s.stack := rfl
@[simp] theorem State.setPc_dt (w : Word) : (s.setPc w).dt = s.dt := rfl
@[simp] theorem State.setPc_st (w : Word) : (s.setPc w).st = s.st := rfl
@[simp] theorem State.setPc_disp (w : Word) : (s.setPc w).disp = s.disp := rfl
@[simp] theorem State.setPc_run (w : Word) : (s.setPc w).run = s.run := rfl
@[simp] theorem State.setPc_fault (w : Word) : (s.setPc w).fault = s.fault := rfl
@[simp] theorem State.setPc_keys (w : Word) : (s.setPc w).keys = s.keys := rfl
@[simp] theorem State.setPc_draws (w : Word) : (s.setPc w).draws = s.draws := rfl
@[simp] theorem State.setPc_hasRun (w : Word) : (s.setPc w).hasRun = s.hasRun := rfl
@[simp] theorem State.setPc_stackLimit (w : Word) : (s.setPc w).stackLimit = s.stackLimit := rfl

@[simp] theorem State.setStack_mem (l : List Word) : (s.setStack l).mem = s.mem := rfl
@[simp] theorem State.setStack_v (l : List Word) : (s.setStack l).v = s.v := rfl
@[simp] theorem State.setStack_i (l : List Word) : (s.setStack l).i = s.i := rfl
@[simp] theorem State.setStack_pc (l : List Word) : (s.setStack l).pc = s.pc := rfl
@[simp] theorem State.setStack_stack (l : List Word) : (s.setStack l).stack = l := rfl
@[simp] theorem State.setStack_dt (l : List Word) : (s.setStack l).dt = s.dt := rfl
@[simp] theorem State.setStack_st (l : List Word) : (s.setStack l).st = s.st := rfl
@[simp] theorem State.setStack_disp (l : List Word) : (s.setStack l).disp = s.disp := rfl
@[simp] theorem State.setStack_run (l : List Word) : (s.setStack l).run = s.run := rfl
@[simp] theorem State.setStack_fault (l : List Word) : (s.setStack l).fault = s.fault := rfl
@[simp] theorem State.setStack_keys (l : List Word) : (s.setStack l).keys = s.keys := rfl
@[simp] theorem State.setStack_draws (l : List Word) : (s.setStack l).draws = s.draws := rfl
@[simp] theorem State.setStack_hasRun (l : List Word) : (s.setStack l).hasRun = s.hasRun := rfl
@[simp] theorem State.setStack_stackLimit (l : List Word) : (s.setStack l).stackLimit = s.stackLimit := rfl

@[simp] theorem State.setDt_mem (b : Byte) : (s.setDt b).mem = s.mem := rfl
@[simp] theorem State.setDt_v (b : Byte) : (s.setDt b).v = s.v := rfl
@[simp] theorem State.setDt_i (b : Byte) : (s.setDt b).i = s.i := rfl
@[simp] theorem State.setDt_pc (b : Byte) : (s.setDt b).pc = s.pc := rfl
@[simp] theorem State.setDt_stack (b : Byte) : (s.setDt b).stack = s.stack := rfl
@[simp] theorem State.setDt_dt (b : Byte) : (s.setDt b).dt = b := rfl
@[simp] theorem State.setDt_st (b : Byte) : (s.setDt b).st = s.st := rfl
@[simp] theorem State.setDt_disp (b : Byte) : (s.setDt b).disp = s.disp := rfl
@[simp] theorem State.setDt_run (b : Byte) : (s.setDt b).run = s.run := rfl
@[simp] theorem State.setDt_fault (b : Byte) : (s.setDt b).fault = s.fault := rfl
@[simp] theorem State.setDt_keys (b : Byte) : (s.setDt b).keys = s.keys := rfl
@[simp] theorem State.setDt_draws (b : Byte) : (s.setDt b).draws = s.draws := rfl
@[simp] theorem State.setDt_hasRun (b : Byte) : (s.setDt b).hasRun = s.hasRun := rfl
@[simp] theorem State.setDt_stackLimit (b : Byte) : (s.setDt b).stackLimit = s.stackLimit := rfl

@[simp] theorem State.setSt_mem (b : Byte) : (s.setSt b).mem = s.mem := rfl
@[simp] theorem State.setSt_v (b : Byte) : (s.setSt b).v = s.v := rfl
@[simp] theorem State.setSt_i (b : Byte) : (s.setSt b).i = s.i := rfl
@[simp] theorem State.setSt_pc (b : Byte) : (s.setSt b).pc = s.pc := rfl
@[simp] theorem State.setSt_stack (b : Byte) : (s.setSt b).stack = s.stack := rfl
@[simp] theorem State.setSt_dt (b : Byte) : (s.setSt b).dt = s.dt := rfl
@[simp] theorem State.setSt_st (b : Byte) : (s.setSt b).st = b := rfl
@[simp] theorem State.setSt_disp (b : Byte) : (s.setSt b).disp = s.disp := rfl
@[simp] theorem State.setSt_run (b : Byte) : (s.setSt b).run = s.run := rfl
@[simp] theorem State.setSt_fault (b : Byte) : (s.setSt b).fault = s.fault := rfl
@[simp] theorem State.setSt_keys (b : Byte) : (s.setSt b).keys = s.keys := rfl
@[simp] theorem State.setSt_draws (b : Byte) : (s.setSt b).draws = s.draws := rfl
@[simp] theorem State.setSt_hasRun (b : Byte) : (s.setSt b).hasRun = s.hasRun := rfl
@[simp] theorem State.setSt_stackLimit (b : Byte) : (s.setSt b).stackLimit = s.stackLimit := rfl

@[simp] theorem State.setDisp_mem (d : Display) : (s.setDisp d).mem = s.mem := rfl
@[simp] theorem State.setDisp_v (d : Display) : (s.setDisp d).v = s.v := rfl
@[simp] theorem State.setDisp_i (d : Display) : (s.setDisp d).i = s.i := rfl
@[simp] theorem State.setDisp_pc (d : Display) : (s.setDisp d).pc = s.pc := rfl
@[simp] theorem State.setDisp_stack (d : Display) : (s.setDisp d).stack = s.stack := rfl
@[simp] theorem State.setDisp_dt (d : Display) : (s.setDisp d).dt = s.dt := rfl
@[simp] theorem State.setDisp_st (d : Display) : (s.setDisp d).st = s.st := rfl
@[simp] theorem State.setDisp_disp (d : Display) : (s.setDisp d).disp = d := rfl
@[simp] theorem State.setDisp_run (d : Display) : (s.setDisp d).run = s.run := rfl
@[simp] theorem State.setDisp_fault (d : Display) : (s.setDisp d).fault = s.fault := rfl
@[simp] theorem State.setDisp_keys (d : Display) : (s.setDisp d).keys = s.keys := rfl
@[simp] theorem State.setDisp_draws (d : Display) : (s.setDisp d).draws = s.draws := rfl
@[simp] theorem State.setDisp_hasRun (d : Display) : (s.setDisp d).hasRun = s.hasRun := rfl
@[simp] theorem State.setDisp_stackLimit (d : Display) : (s.setDisp d).stackLimit = s.stackLimit := rfl

@[simp] theorem State.setRun_mem (r : RunState) : (s.setRun r).mem = s.mem := rfl
@[simp] theorem State.setRun_v (r : RunState) : (s.setRun r).v = s.v := rfl
@[simp] theorem State.setRun_i (r : RunState) : (s.setRun r).i = s.i := rfl
@[simp] theorem State.setRun_pc (r : RunState) : (s.setRun r).pc = s.pc := rfl
@[simp] theorem State.setRun_stack (r : RunState) : (s.setRun r).stack = s.stack := rfl
@[simp] theorem State.setRun_dt (r : RunState) : (s.setRun r).dt = s.dt := rfl
@[simp] theorem State.setRun_st (r : RunState) : (s.setRun r).st = s.st := rfl
@[simp] theorem State.setRun_disp (r : RunState) : (s.setRun r).disp = s.disp := rfl
@[simp] theorem State.setRun_run (r : RunState) : (s.setRun r).run = r := rfl
@[simp] theorem State.setRun_fault (r : RunState) : (s.setRun r).fault = s.fault := rfl
@[simp] theorem State.setRun_keys (r : RunState) : (s.setRun r).keys = s.keys := rfl
@[simp] theorem State.setRun_draws (r : RunState) : (s.setRun r).draws = s.draws := rfl
@[simp] theorem State.setRun_hasRun (r : RunState) : (s.setRun r).hasRun = s.hasRun := rfl
@[simp] theorem State.setRun_stackLimit (r : RunState) : (s.setRun r).stackLimit = s.stackLimit := rfl

@[simp] theorem State.setFault_mem (f : Option Fault) : (s.setFault f).mem = s.mem := rfl
@[simp] theorem State.setFault_v (f : Option Fault) : (s.setFault f).v = s.v := rfl
@[simp] theorem State.setFault_i (f : Option Fault) : (s.setFault f).i = s.i := rfl
@[simp] theorem State.setFault_pc (f : Option Fault) : (s.setFault f).pc = s.pc := rfl
@[simp] theorem State.setFault_stack (f : Option Fault) : (s.setFault f).stack = s.stack := rfl
@[simp] theorem State.setFault_dt (f : Option Fault) : (s.setFault f).dt = s.dt := rfl
@[simp] theorem State.setFault_st (f : Option Fault) : (s.setFault f).st = s.st := rfl
@[simp] theorem State.setFault_disp (f : Option Fault) : (s.setFault f).disp = s.disp := rfl
@[simp] theorem State.setFault_run (f : Option Fault) : (s.setFault f).run = s.run := rfl
@[simp] theorem State.setFault_fault (f : Option Fault) : (s.setFault f).fault = f := rfl
@[simp] theorem State.setFault_keys (f : Option Fault) : (s.setFault f).keys = s.keys := rfl
@[simp] theorem State.setFault_draws (f : Option Fault) : (s.setFault f).draws = s.draws := rfl
@[simp] theorem State.setFault_hasRun (f : Option Fault) : (s.setFault f).hasRun = s.hasRun := rfl
@[simp] theorem State.setFault_stackLimit (f : Option Fault) : (s.setFault f).stackLimit = s.stackLimit := rfl

@[simp] theorem State.setKeys_mem (k : Word) : (s.setKeys k).mem = s.mem := rfl
@[simp] theorem State.setKeys_v (k : Word) : (s.setKeys k).v = s.v := rfl
@[simp] theorem State.setKeys_i (k : Word) : (s.setKeys k).i = s.i := rfl
@[simp] theorem State.setKeys_pc (k : Word) : (s.setKeys k).pc = s.pc := rfl
@[simp] theorem State.setKeys_stack (k : Word) : (s.setKeys k).stack = s.stack := rfl
@[simp] theorem State.setKeys_dt (k : Word) : (s.setKeys k).dt = s.dt := rfl
@[simp] theorem State.setKeys_st (k : Word) : (s.setKeys k).st = s.st := rfl
@[simp] theorem State.setKeys_disp (k : Word) : (s.setKeys k).disp = s.disp := rfl
@[simp] theorem State.setKeys_run (k : Word) : (s.setKeys k).run = s.run := rfl
@[simp] theorem State.setKeys_fault (k : Word) : (s.setKeys k).fault = s.fault := rfl
@[simp] theorem State.setKeys_keys (k : Word) : (s.setKeys k).keys = k := rfl
@[simp] theorem State.setKeys_draws (k : Word) : (s.setKeys k).draws = s.draws := rfl
@[simp] theorem State.setKeys_hasRun (k : Word) : (s.setKeys k).hasRun = s.hasRun := rfl
@[simp] theorem State.setKeys_stackLimit (k : Word) : (s.setKeys k).stackLimit = s.stackLimit := rfl

@[simp] theorem State.setDraws_mem (n : Nat) : (s.setDraws n).mem = s.mem := rfl
@[simp] theorem State.setDraws_v (n : Nat) : (s.setDraws n).v = s.v := rfl
@[simp] theorem State.setDraws_i (n : Nat) : (s.setDraws n).i = s.i := rfl
@[simp] theorem State.setDraws_pc (n : Nat) : (s.setDraws n).pc = s.pc := rfl
@[simp] theorem State.setDraws_stack (n : Nat) : (s.setDraws n).stack = s.stack := rfl
@[simp] theorem State.setDraws_dt (n : Nat) : (s.setDraws n).dt = s.dt := rfl
@[simp] theorem State.setDraws_st (n : Nat) : (s.setDraws n).st = s.st := rfl
@[simp] theorem State.setDraws_disp (n : Nat) : (s.setDraws n).disp = s.disp := rfl
@[simp] theorem State.setDraws_run (n : Nat) : (s.setDraws n).run = s.run := rfl
@[simp] theorem State.setDraws_fault (n : Nat) : (s.setDraws n).fault = s.fault := rfl
@[simp] theorem State.setDraws_keys (n : Nat) : (s.setDraws n).keys = s.keys := rfl
@[simp] theorem State.setDraws_draws (n : Nat) : (s.setDraws n).draws = n := rfl
@[simp] theorem State.setDraws_hasRun (n : Nat) : (s.setDraws n).hasRun = s.hasRun := rfl
@[simp] theorem State.setDraws_stackLimit (n : Nat) : (s.setDraws n).stackLimit = s.stackLimit := rfl

@[simp] theorem State.setHasRun_mem (b : Bool) : (s.setHasRun b).mem = s.mem := rfl
@[simp] theorem State.setHasRun_v (b : Bool) : (s.setHasRun b).v = s.v := rfl
@[simp] theorem State.setHasRun_i (b : Bool) : (s.setHasRun b).i = s.i := rfl
@[simp] theorem State.setHasRun_pc (b : Bool) : (s.setHasRun b).pc = s.pc := rfl
@[simp] theorem State.setHasRun_stack (b : Bool) : (s.setHasRun b).stack = s.stack := rfl
@[simp] theorem State.setHasRun_dt (b : Bool) : (s.setHasRun b).dt = s.dt := rfl
@[simp] theorem State.setHasRun_st (b : Bool) : (s.setHasRun b).st = s.st := rfl
@[simp] theorem State.setHasRun_disp (b : Bool) : (s.setHasRun b).disp = s.disp := rfl
@[simp] theorem State.setHasRun_run (b : Bool) : (s.setHasRun b).run = s.run := rfl
@[simp] theorem State.setHasRun_fault (b : Bool) : (s.setHasRun b).fault = s.fault := rfl
@[simp] theorem State.setHasRun_keys (b : Bool) : (s.setHasRun b).keys = s.keys := rfl
@[simp] theorem State.setHasRun_draws (b : Bool) : (s.setHasRun b).draws = s.draws := rfl
@[simp] theorem State.setHasRun_hasRun (b : Bool) : (s.setHasRun b).hasRun = b := rfl
@[simp] theorem State.setHasRun_stackLimit (b : Bool) : (s.setHasRun b).stackLimit = s.stackLimit := rfl

@[simp] theorem State.getV_setMem (m : Memory) (x : Nibble) : (s.setMem m).getV x = s.getV x := rfl
@[simp] theorem State.getV_setI (w : Word) (x : Nibble) : (s.setI w).getV x = s.getV x := rfl
@[simp] theorem State.getV_setPc (w : Word) (x : Nibble) : (s.setPc w).getV x = s.getV x := rfl
@[simp] theorem State.getV_setStack (l : List Word) (x : Nibble) : (s.setStack l).getV x = s.getV x := rfl
@[simp] theorem State.getV_setDt (b : Byte) (x : Nibble) : (s.setDt b).getV x = s.getV x := rfl
@[simp] theorem State.getV_setSt (b : Byte) (x : Nibble) : (s.setSt b).getV x = s.getV x := rfl
@[simp] theorem State.getV_setDisp (d : Display) (x : Nibble) : (s.setDisp d).getV x = s.getV x := rfl
@[simp] theorem State.getV_setRun (r : RunState) (x : Nibble) : (s.setRun r).getV x = s.getV x := rfl
@[simp] theorem State.getV_setFault (f : Option Fault) (x : Nibble) : (s.setFault f).getV x = s.getV x := rfl
@[simp] theorem State.getV_setKeys (k : Word) (x : Nibble) : (s.setKeys k).getV x = s.getV x := rfl
@[simp] theorem State.getV_setDraws (n : Nat) (x : Nibble) : (s.setDraws n).getV x = s.getV x := rfl
@[simp] theorem State.getV_setHasRun (b : Bool) (x : Nibble) : (s.setHasRun b).getV x = s.getV x := rfl

@[simp] theorem State.setV_mem (x : Nibble) (b : Byte) : (s.setV x b).mem = s.mem := rfl
@[simp] theorem State.setV_i (x : Nibble) (b : Byte) : (s.setV x b).i = s.i := rfl
@[simp] theorem State.setV_pc (x : Nibble) (b : Byte) : (s.setV x b).pc = s.pc := rfl
@[simp] theorem State.setV_stack (x : Nibble) (b : Byte) : (s.setV x b).stack = s.stack := rfl
@[simp] theorem State.setV_dt (x : Nibble) (b : Byte) : (s.setV x b).dt = s.dt := rfl
@[simp] theorem State.setV_st (x : Nibble) (b : Byte) : (s.setV x b).st = s.st := rfl
@[simp] theorem State.setV_disp (x : Nibble) (b : Byte) : (s.setV x b).disp = s.disp := rfl
@[simp] theorem State.setV_run (x : Nibble) (b : Byte) : (s.setV x b).run = s.run := rfl
@[simp] theorem State.setV_fault (x : Nibble) (b : Byte) : (s.setV x b).fault = s.fault := rfl
@[simp] theorem State.setV_keys (x : Nibble) (b : Byte) : (s.setV x b).keys = s.keys := rfl
@[simp] theorem State.setV_draws (x : Nibble) (b : Byte) : (s.setV x b).draws = s.draws := rfl
@[simp] theorem State.setV_hasRun (x : Nibble) (b : Byte) : (s.setV x b).hasRun = s.hasRun := rfl
@[simp] theorem State.setV_stackLimit (x : Nibble) (b : Byte) : (s.setV x b).stackLimit = s.stackLimit := rfl

/-- A register write is read back, and no other register changes (10_state.md R20). -/
theorem State.getV_setV (x y : Nibble) (b : Byte) :
    (s.setV x b).getV y = if y = x then b else s.getV y := by
  simp only [State.getV, State.setV, State.setVs_v, Vector.getElem_set]
  by_cases h : y = x
  · simp [h]
  · have : x.toNat ≠ y.toNat := fun e => h (BitVec.eq_of_toNat_eq e.symm)
    simp [h, this]

@[simp] theorem State.getV_setV_same (x : Nibble) (b : Byte) : (s.setV x b).getV x = b := by
  simp [State.getV_setV]

end Sys2Proof.Machine
end

