-- ==== Sys2Proof/Laws/Engine.lean ====
section
/-! SUPPORT. The laws of the parts of a step, of the timers, of the loads and of a run of steps: what each shared operation can
do, said once. -/

namespace Sys2Proof.Machine

/-- The core is halted exactly when a fault is latched or it is Paused (40_execution_engine.md R91, R92). -/
theorem halted_iff (s : State) : halted s = true ↔ s.fault ≠ none ∨ s.run = .paused := by
  cases hf : s.fault <;> cases hr : s.run <;> simp [halted, hf, hr]

@[simp] theorem halted_closeBootWindow (s : State) : halted (closeBootWindow s) = halted s := rfl

theorem fetch_error {s : State} (h : 0xFFE < s.pc.toNat) : fetch s = .error (.fetchOutOfBounds s.pc) := by
  rw [fetch, if_pos h]

theorem fetch_ok {s : State} (h : s.pc.toNat ≤ 0xFFE) :
    fetch s = .ok (wordOfBytes (s.mem.read s.pc.toNat) (s.mem.read (s.pc.toNat + 1))) := by
  rw [fetch, if_neg (Nat.not_lt.2 h)]

/-- After a fetch the advance does not wrap (40_execution_engine.md R94, 10_state.md R24). -/
theorem advance_pc {s : State} (h : s.pc.toNat ≤ 0xFFE) : (advance s).pc.toNat = s.pc.toNat + 2 := by
  have : (2 : Word).toNat = 2 := rfl
  simp only [advance, State.setPc_pc, BitVec.toNat_add, this]
  omega

/-- PC0 is recovered from the advanced PC (R94). -/
theorem pc0_advance (s : State) : pc0 (advance s) = s.pc := by simp [pc0, advance]

theorem toNat_countDown (t : Byte) : (countDown t).toNat = t.toNat - 1 := by
  revert t
  decide

/-- `timer_tick` writes DT and ST alone (R99). -/
theorem timerTick_eq (s : State) : timerTick s = (s.setDt (countDown s.dt)).setSt (countDown s.st) := rfl

/-- The word placed at PC is the one the next fetch reads (20_memory.md R55). -/
theorem fetch_placeWordAtPc (w : Word) {s : State} (h : s.pc.toNat ≤ 0xFFE) : fetch (placeWordAtPc w s) = .ok w := by
  have hw : (highByte w).toNat * 256 + (lowByte w).toNat = w.toNat := by
    simp [highByte, lowByte, BitVec.extractLsb'_toNat, Nat.shiftRight_eq_div_pow]
    omega
  rw [fetch_ok (by exact h)]
  simp [placeWordAtPc, Memory.read_writeBytes, wordOfBytes, hw]

/-- A load is turned away by the state exactly when a fault is latched or the boot window is closed (70_reset_and_hazards.md
R234, 40_execution_engine.md R92). -/
theorem loadRefusal_eq_none (s : State) : loadRefusal s = none ↔ s.fault = none ∧ s.hasRun = false := by
  cases hf : s.fault <;> cases hr : s.hasRun <;> simp [loadRefusal, hf, hr]

theorem loadFont_eq (font : Vector Byte 80) {s : State} (hf : s.fault = none) (hr : s.hasRun = false) :
    loadFont font s = .next (s.setMem (s.mem.writeBytes 0 font.toList)) := by
  rw [loadFont, (loadRefusal_eq_none s).2 ⟨hf, hr⟩, Config.fontBase]

theorem loadProgram_eq {bytes : List Byte} (hb : bytes.length ≤ 3584) {s : State} (hf : s.fault = none)
    (hr : s.hasRun = false) : loadProgram bytes s = .next (s.setMem (s.mem.writeBytes 0x200 bytes)) := by
  rw [loadProgram, (loadRefusal_eq_none s).2 ⟨hf, hr⟩]
  simp [programWellFormed, Config.progMax, Config.progBase, hb]

/-- One more step of a run: a step that latches a fault is the last (40_execution_engine.md R101). -/
theorem runSteps_succ {n : Nat} {s t : State} (h : step s = .next t) :
    runSteps (n + 1) s = if t.fault.isSome then .next t else runSteps n t := by
  rw [runSteps, h]

end Sys2Proof.Machine
end

