-- ==== Sys2Proof/Laws/Operands.lean ====
section
/-! SUPPORT. The laws of operand forms, flags, faults, skips and keys: what each shared operation does, said once. -/

namespace Sys2Proof.Machine

@[simp] theorem toNat_zextAddr (nnn : Addr12) : (zextAddr nnn).toNat = nnn.toNat := by
  have := nnn.isLt
  simp only [zextAddr, BitVec.toNat_setWidth]
  omega

@[simp] theorem toNat_zextByte (b : Byte) : (zextByte b).toNat = b.toNat := by
  have := b.isLt
  simp only [zextByte, BitVec.toNat_setWidth]
  omega

@[simp] theorem toNat_flagByte (c : Bool) : (flagByte c).toNat = if c then 1 else 0 := by
  cases c <;> rfl

theorem toNat_carryFlag (a b : Byte) : (carryFlag a b).toNat = if 255 < a.toNat + b.toNat then 1 else 0 := by
  simp [carryFlag]

theorem toNat_greaterFlag (a b : Byte) : (greaterFlag a b).toNat = if b.toNat < a.toNat then 1 else 0 := by
  simp [greaterFlag]

theorem toNat_lowBitFlag (a : Byte) : (lowBitFlag a).toNat = a.toNat % 2 := by
  simp [lowBitFlag, BitVec.toNat_and, Nat.and_one_is_mod]

theorem toNat_highBitFlag (a : Byte) : (highBitFlag a).toNat = a.toNat / 128 := by
  simp [highBitFlag, BitVec.toNat_ushiftRight, Nat.shiftRight_eq_div_pow]

/-- The flag write is last: with x = F it remains (42_register_alu.md R131). -/
theorem getV_resultThenFlag (x : Nibble) (r f : Byte) (s : State) (j : Nibble) :
    (resultThenFlag x r f s).getV j = if j = 15 then f else if j = x then r else s.getV j := by
  simp [resultThenFlag, vf, State.getV_setV]

/-- The result write is last: with x = F it remains (R131). -/
theorem getV_flagThenResult (x : Nibble) (f r : Byte) (s : State) (j : Nibble) :
    (flagThenResult x f r s).getV j = if j = x then r else if j = 15 then f else s.getV j := by
  simp [flagThenResult, vf, State.getV_setV]

/-- The instruction raises DataOutOfBounds exactly when it accesses a byte and the highest address exceeds 4095 (43_index_memory.md
R150). -/
theorem accessFault_eq (k : Nat) (s : State) :
    accessFault k s =
      if 1 ≤ k ∧ 4095 < s.i.toNat + k - 1 then some (.dataOutOfBounds (pc0 s) (s.i.toNat + k - 1)) else none := rfl

theorem accessFault_none {k : Nat} {s : State} (h : s.i.toNat + k ≤ 4096) : accessFault k s = none := by
  rw [accessFault_eq, if_neg]
  omega

/-- `raise` answers a next state that differs in the latch alone (60_exceptions.md R208). -/
theorem raise_eq (f : Fault) (s : State) : raise f s = .next (s.setFault (some f)) := rfl

theorem skipIf_pc (c : Bool) (s : State) : (skipIf c s).pc = if c then s.pc + 2 else s.pc := by
  cases c <;> rfl

/-- A skip writes PC alone. -/
theorem skipIf_eq (c : Bool) (s : State) : skipIf c s = s.setPc (if c then s.pc + 2 else s.pc) := by
  cases c <;> rfl

theorem stackFull_iff (s : State) : stackFull s = true ↔ s.stackLimit = some s.stack.length := by
  rw [stackFull]
  cases s.stackLimit with
  | none => simp
  | some n => simpa using (eq_comm : s.stack.length = n ↔ n = s.stack.length)

theorem mem_pressedKeys (keys : Word) (k : Byte) : k ∈ pressedKeys keys ↔ keyDown keys k = true := by
  simp only [pressedKeys, keyDown, List.mem_map, List.mem_filter, List.mem_range]
  constructor
  · rintro ⟨n, ⟨hn, hb⟩, rfl⟩
    have : n % 256 = n := Nat.mod_eq_of_lt (by omega)
    simpa [this] using hb
  · intro h
    refine ⟨k.toNat, ⟨?_, h⟩, by simp⟩
    by_contra hge
    rw [BitVec.getLsbD_of_ge _ _ (by omega)] at h
    exact Bool.noConfusion h

theorem pressedKeys_eq_nil (keys : Word) : pressedKeys keys = [] ↔ keys = 0 := by
  constructor
  · intro h
    refine BitVec.eq_of_getLsbD_eq fun n hn => ?_
    have hn' : n % 256 = n := Nat.mod_eq_of_lt (by omega)
    by_contra hne
    have : BitVec.ofNat 8 n ∈ pressedKeys keys := by
      rw [mem_pressedKeys, keyDown]
      simpa [hn'] using hne
    simp [h] at this
  · rintro rfl; decide

/-- KEY_SELECT gives one of the pressed keys, whatever the free index is (00_scope.md R6). -/
theorem chooseKey_mem (index : Nat) (k : Byte) (ks : List Byte) : chooseKey index k ks ∈ k :: ks := by
  have h : index % (ks.length + 1) < (k :: ks).length := by
    simpa using Nat.mod_lt _ (Nat.succ_pos _)
  rw [chooseKey, List.getElem?_eq_getElem h]
  exact List.getElem_mem h

theorem getElem_fillRegs (bs : List Byte) (j : Nat) (v : Vector Byte 16) (k : Nat) (hk : k < 16) :
    (fillRegs j bs v)[k] = if j ≤ k ∧ k < j + bs.length then bs.getD (k - j) 0 else v[k] := by
  induction bs generalizing j v with
  | nil => simp [fillRegs]
  | cons b bs ih =>
    rw [fillRegs, ih, Vector.getElem_setIfInBounds]
    by_cases h1 : j = k
    · subst h1; simp
    · by_cases h2 : j + 1 ≤ k ∧ k < j + 1 + bs.length
      · have h3 : j ≤ k ∧ k < j + (b :: bs).length := by simp; omega
        have h4 : k - j = (k - (j + 1)) + 1 := by omega
        rw [if_pos h2, if_pos h3, h4]; simp
      · have h3 : ¬ (j ≤ k ∧ k < j + (b :: bs).length) := by simp; omega
        rw [if_neg h2, if_neg h3, if_neg h1]

@[simp] theorem length_regsUpTo (x : Nibble) (s : State) : (regsUpTo x s).length = x.toNat + 1 := by
  have := x.isLt
  simp [regsUpTo]
  omega

theorem getD_regsUpTo (x j : Nibble) (s : State) (h : j.toNat ≤ x.toNat) :
    (regsUpTo x s).getD j.toNat 0 = s.getV j := by
  have hj : j.toNat < 16 := j.isLt
  rw [regsUpTo, List.getD_eq_getElem?_getD, List.getElem?_take, if_pos (by omega)]
  simp [State.getV, hj]

end Sys2Proof.Machine
end

