-- ==== Sys2Proof/Laws/PerInstr.lean ====
section
/-! SUPPORT. One lemma per instruction: its row stands in the opcode map, and its encoded word belongs to that row
(30_encoding.md R74). -/

namespace Sys2Proof.Laws.OpcodeRow

/-- The instruction's row is one of the 34 of R74 and accepts the instruction's word. -/
def Statement (i : Instr) : Prop := i.row ∈ opcodeMap ∧ i.row.accepts (encodeWord i) = true

theorem cls : Statement .cls := ⟨by decide, by decide⟩

theorem ret : Statement .ret := ⟨by decide, by decide⟩

theorem jp (nnn : Addr12) : Statement (.jp nnn) := by
  have := nnn.isLt
  exact ⟨by simp [Instr.row, opcodeMap, opcodeMapLow, opcodeMapHigh], (accepts_F000 1 (by omega) _).2 (by
    rw [encodeWord, toNat_encodeNNN (by omega)]; omega)⟩

theorem call (nnn : Addr12) : Statement (.call nnn) := by
  have := nnn.isLt
  exact ⟨by simp [Instr.row, opcodeMap, opcodeMapLow, opcodeMapHigh], (accepts_F000 2 (by omega) _).2 (by
    rw [encodeWord, toNat_encodeNNN (by omega)]; omega)⟩

theorem seImm (x : Nibble) (nn : Byte) : Statement (.seImm x nn) := by
  have := x.isLt
  have := nn.isLt
  exact ⟨by simp [Instr.row, opcodeMap, opcodeMapLow, opcodeMapHigh], (accepts_F000 3 (by omega) _).2 (by
    rw [encodeWord, toNat_encodeXNN (by omega) x (by omega)]; omega)⟩

theorem sneImm (x : Nibble) (nn : Byte) : Statement (.sneImm x nn) := by
  have := x.isLt
  have := nn.isLt
  exact ⟨by simp [Instr.row, opcodeMap, opcodeMapLow, opcodeMapHigh], (accepts_F000 4 (by omega) _).2 (by
    rw [encodeWord, toNat_encodeXNN (by omega) x (by omega)]; omega)⟩

theorem seReg (x y : Nibble) : Statement (.seReg x y) := by
  have := x.isLt
  have := y.isLt
  exact ⟨by simp [Instr.row, opcodeMap, opcodeMapLow, opcodeMapHigh], (accepts_F00F 5 0 (by omega) (by omega) _).2 (by
    rw [encodeWord, toNat_encodeXYN (by omega) x y (by omega)]; omega)⟩

theorem ldImm (x : Nibble) (nn : Byte) : Statement (.ldImm x nn) := by
  have := x.isLt
  have := nn.isLt
  exact ⟨by simp [Instr.row, opcodeMap, opcodeMapLow, opcodeMapHigh], (accepts_F000 6 (by omega) _).2 (by
    rw [encodeWord, toNat_encodeXNN (by omega) x (by omega)]; omega)⟩

theorem addImm (x : Nibble) (nn : Byte) : Statement (.addImm x nn) := by
  have := x.isLt
  have := nn.isLt
  exact ⟨by simp [Instr.row, opcodeMap, opcodeMapLow, opcodeMapHigh], (accepts_F000 7 (by omega) _).2 (by
    rw [encodeWord, toNat_encodeXNN (by omega) x (by omega)]; omega)⟩

theorem ldReg (x y : Nibble) : Statement (.ldReg x y) := by
  have := x.isLt
  have := y.isLt
  exact ⟨by simp [Instr.row, opcodeMap, opcodeMapLow, opcodeMapHigh], (accepts_F00F 8 0 (by omega) (by omega) _).2 (by
    rw [encodeWord, toNat_encodeXYN (by omega) x y (by omega)]; omega)⟩

theorem orReg (x y : Nibble) : Statement (.orReg x y) := by
  have := x.isLt
  have := y.isLt
  exact ⟨by simp [Instr.row, opcodeMap, opcodeMapLow, opcodeMapHigh], (accepts_F00F 8 1 (by omega) (by omega) _).2 (by
    rw [encodeWord, toNat_encodeXYN (by omega) x y (by omega)]; omega)⟩

theorem andReg (x y : Nibble) : Statement (.andReg x y) := by
  have := x.isLt
  have := y.isLt
  exact ⟨by simp [Instr.row, opcodeMap, opcodeMapLow, opcodeMapHigh], (accepts_F00F 8 2 (by omega) (by omega) _).2 (by
    rw [encodeWord, toNat_encodeXYN (by omega) x y (by omega)]; omega)⟩

theorem xorReg (x y : Nibble) : Statement (.xorReg x y) := by
  have := x.isLt
  have := y.isLt
  exact ⟨by simp [Instr.row, opcodeMap, opcodeMapLow, opcodeMapHigh], (accepts_F00F 8 3 (by omega) (by omega) _).2 (by
    rw [encodeWord, toNat_encodeXYN (by omega) x y (by omega)]; omega)⟩

theorem addReg (x y : Nibble) : Statement (.addReg x y) := by
  have := x.isLt
  have := y.isLt
  exact ⟨by simp [Instr.row, opcodeMap, opcodeMapLow, opcodeMapHigh], (accepts_F00F 8 4 (by omega) (by omega) _).2 (by
    rw [encodeWord, toNat_encodeXYN (by omega) x y (by omega)]; omega)⟩

theorem sub (x y : Nibble) : Statement (.sub x y) := by
  have := x.isLt
  have := y.isLt
  exact ⟨by simp [Instr.row, opcodeMap, opcodeMapLow, opcodeMapHigh], (accepts_F00F 8 5 (by omega) (by omega) _).2 (by
    rw [encodeWord, toNat_encodeXYN (by omega) x y (by omega)]; omega)⟩

theorem shr (x y : Nibble) : Statement (.shr x y) := by
  have := x.isLt
  have := y.isLt
  exact ⟨by simp [Instr.row, opcodeMap, opcodeMapLow, opcodeMapHigh], (accepts_F00F 8 6 (by omega) (by omega) _).2 (by
    rw [encodeWord, toNat_encodeXYN (by omega) x y (by omega)]; omega)⟩

theorem subn (x y : Nibble) : Statement (.subn x y) := by
  have := x.isLt
  have := y.isLt
  exact ⟨by simp [Instr.row, opcodeMap, opcodeMapLow, opcodeMapHigh], (accepts_F00F 8 7 (by omega) (by omega) _).2 (by
    rw [encodeWord, toNat_encodeXYN (by omega) x y (by omega)]; omega)⟩

theorem shl (x y : Nibble) : Statement (.shl x y) := by
  have := x.isLt
  have := y.isLt
  exact ⟨by simp [Instr.row, opcodeMap, opcodeMapLow, opcodeMapHigh], (accepts_F00F 8 14 (by omega) (by omega) _).2 (by
    rw [encodeWord, toNat_encodeXYN (by omega) x y (by omega)]; omega)⟩

theorem sneReg (x y : Nibble) : Statement (.sneReg x y) := by
  have := x.isLt
  have := y.isLt
  exact ⟨by simp [Instr.row, opcodeMap, opcodeMapLow, opcodeMapHigh], (accepts_F00F 9 0 (by omega) (by omega) _).2 (by
    rw [encodeWord, toNat_encodeXYN (by omega) x y (by omega)]; omega)⟩

theorem ldI (nnn : Addr12) : Statement (.ldI nnn) := by
  have := nnn.isLt
  exact ⟨by simp [Instr.row, opcodeMap, opcodeMapLow, opcodeMapHigh], (accepts_F000 10 (by omega) _).2 (by
    rw [encodeWord, toNat_encodeNNN (by omega)]; omega)⟩

theorem jpV0 (nnn : Addr12) : Statement (.jpV0 nnn) := by
  have := nnn.isLt
  exact ⟨by simp [Instr.row, opcodeMap, opcodeMapLow, opcodeMapHigh], (accepts_F000 11 (by omega) _).2 (by
    rw [encodeWord, toNat_encodeNNN (by omega)]; omega)⟩

theorem rnd (x : Nibble) (nn : Byte) : Statement (.rnd x nn) := by
  have := x.isLt
  have := nn.isLt
  exact ⟨by simp [Instr.row, opcodeMap, opcodeMapLow, opcodeMapHigh], (accepts_F000 12 (by omega) _).2 (by
    rw [encodeWord, toNat_encodeXNN (by omega) x (by omega)]; omega)⟩

theorem drw (x y n : Nibble) : Statement (.drw x y n) := by
  have := x.isLt
  have := y.isLt
  have := n.isLt
  exact ⟨by simp [Instr.row, opcodeMap, opcodeMapLow, opcodeMapHigh], (accepts_F000 13 (by omega) _).2 (by
    rw [encodeWord, toNat_encodeXYN (by omega) x y (by omega)]; omega)⟩

theorem skp (x : Nibble) : Statement (.skp x) := by
  have := x.isLt
  exact ⟨by simp [Instr.row, opcodeMap, opcodeMapLow, opcodeMapHigh], (accepts_F0FF 14 158 (by omega) (by omega) _).2 (by
    rw [encodeWord, toNat_encodeXNN (by omega) x (by omega)]; omega)⟩

theorem sknp (x : Nibble) : Statement (.sknp x) := by
  have := x.isLt
  exact ⟨by simp [Instr.row, opcodeMap, opcodeMapLow, opcodeMapHigh], (accepts_F0FF 14 161 (by omega) (by omega) _).2 (by
    rw [encodeWord, toNat_encodeXNN (by omega) x (by omega)]; omega)⟩

theorem ldVxDt (x : Nibble) : Statement (.ldVxDt x) := by
  have := x.isLt
  exact ⟨by simp [Instr.row, opcodeMap, opcodeMapLow, opcodeMapHigh], (accepts_F0FF 15 7 (by omega) (by omega) _).2 (by
    rw [encodeWord, toNat_encodeXNN (by omega) x (by omega)]; omega)⟩

theorem ldVxK (x : Nibble) : Statement (.ldVxK x) := by
  have := x.isLt
  exact ⟨by simp [Instr.row, opcodeMap, opcodeMapLow, opcodeMapHigh], (accepts_F0FF 15 10 (by omega) (by omega) _).2 (by
    rw [encodeWord, toNat_encodeXNN (by omega) x (by omega)]; omega)⟩

theorem ldDtVx (x : Nibble) : Statement (.ldDtVx x) := by
  have := x.isLt
  exact ⟨by simp [Instr.row, opcodeMap, opcodeMapLow, opcodeMapHigh], (accepts_F0FF 15 21 (by omega) (by omega) _).2 (by
    rw [encodeWord, toNat_encodeXNN (by omega) x (by omega)]; omega)⟩

theorem ldStVx (x : Nibble) : Statement (.ldStVx x) := by
  have := x.isLt
  exact ⟨by simp [Instr.row, opcodeMap, opcodeMapLow, opcodeMapHigh], (accepts_F0FF 15 24 (by omega) (by omega) _).2 (by
    rw [encodeWord, toNat_encodeXNN (by omega) x (by omega)]; omega)⟩

theorem addI (x : Nibble) : Statement (.addI x) := by
  have := x.isLt
  exact ⟨by simp [Instr.row, opcodeMap, opcodeMapLow, opcodeMapHigh], (accepts_F0FF 15 30 (by omega) (by omega) _).2 (by
    rw [encodeWord, toNat_encodeXNN (by omega) x (by omega)]; omega)⟩

theorem ldF (x : Nibble) : Statement (.ldF x) := by
  have := x.isLt
  exact ⟨by simp [Instr.row, opcodeMap, opcodeMapLow, opcodeMapHigh], (accepts_F0FF 15 41 (by omega) (by omega) _).2 (by
    rw [encodeWord, toNat_encodeXNN (by omega) x (by omega)]; omega)⟩

theorem ldB (x : Nibble) : Statement (.ldB x) := by
  have := x.isLt
  exact ⟨by simp [Instr.row, opcodeMap, opcodeMapLow, opcodeMapHigh], (accepts_F0FF 15 51 (by omega) (by omega) _).2 (by
    rw [encodeWord, toNat_encodeXNN (by omega) x (by omega)]; omega)⟩

theorem ldMemVx (x : Nibble) : Statement (.ldMemVx x) := by
  have := x.isLt
  exact ⟨by simp [Instr.row, opcodeMap, opcodeMapLow, opcodeMapHigh], (accepts_F0FF 15 85 (by omega) (by omega) _).2 (by
    rw [encodeWord, toNat_encodeXNN (by omega) x (by omega)]; omega)⟩

theorem ldVxMem (x : Nibble) : Statement (.ldVxMem x) := by
  have := x.isLt
  exact ⟨by simp [Instr.row, opcodeMap, opcodeMapLow, opcodeMapHigh], (accepts_F0FF 15 101 (by omega) (by omega) _).2 (by
    rw [encodeWord, toNat_encodeXNN (by omega) x (by omega)]; omega)⟩

end Sys2Proof.Laws.OpcodeRow
end

