-- ==== Sys2Proof/Tests/Slice0.lean ====
section
/-! SUPPORT. Tests. Expected values are those of spec/95_test_vectors.md (cited as T1, E1, P1, ...) or are worked out by hand
from the rule cited. Part 4 holds one witness per hypothesis of the statements in Certificates/Slice0/Obligations.lean. -/

namespace Sys2Proof.Tests

open Machine

/-! ## Helpers -/

/-- The vectors' start state (10_state.md R41, without font and program), with some general registers set. -/
def start (vs : List (Nibble × Byte)) : State := vs.foldl (fun s p => s.setV p.1 p.2) State.reset

/-- `s` with bytes placed from an address. -/
def placed (a : Nat) (bs : List Byte) (s : State) : State := s.setMem (s.mem.writeBytes a bs)

/-- `s` with a call stack, top first. -/
def stacked (l : List Word) (s : State) : State := s.setStack l

/-- `s` in a build with STACK_LIMIT. -/
def limited (n : Nat) (s : State) : State := { s with stackLimit := some n }

/-- What one operation leaves, read by `f`. -/
def seen {α : Type} (f : State → α) : Result → Option α
  | .next t => some (f t)
  | .fault _ => none
  | .refused _ => none

/-- What one `step` on the word `w` leaves, read by `f`. -/
def stepped {α : Type} (w : Nat) (s : State) (f : State → α) : Option α := seen f (step (s.withFetchWord 16 w))

/-! ## 1. Well-formedness: each check refuses a term that breaks it -/

/-- A target bit outside the mask. -/
theorem smoke_target_outside_mask : Row.wellFormed ⟨0xF000, 0x1001⟩ = false := by decide

/-- A mask that leaves the family selector open. -/
theorem smoke_mask_without_family : Row.wellFormed ⟨0x0FFF, 0x00E0⟩ = false := by decide

/-- Two rows that share the word 0x00E0. -/
theorem smoke_rows_overlap : opcodeMapWellFormed [⟨0xF000, 0x0000⟩, ⟨0xFFFF, 0x00E0⟩] = false := by decide

/-- An ill-formed row in a map of one. -/
theorem smoke_map_with_bad_row : opcodeMapWellFormed [⟨0xF000, 0x1001⟩] = false := by decide

/-- A program of 3585 bytes (T142); 3584 are accepted (T143). -/
theorem smoke_program_too_long : programWellFormed (List.replicate 3585 0) = false := by
  rw [programWellFormed, List.length_replicate]
  decide

theorem smoke_longest_program : programWellFormed (List.replicate 3584 0) = true := by
  rw [programWellFormed, List.length_replicate]
  decide

/-- The map of 30_encoding.md R74 passes. -/
theorem smoke_map : opcodeMapWellFormed opcodeMap = true := by decide

/-! ## 2. Decoding: words written out from each instruction's encoding (41 to 45), fields x = A, y = 3, n = 7, nn = C5,
nnn = 9B2 -/

theorem decode_cls : decode [0x00, 0xE0] = .ok (.cls, []) := by decide
theorem decode_ret : decode [0x00, 0xEE] = .ok (.ret, []) := by decide
theorem decode_jp : decode [0x19, 0xB2] = .ok (.jp 0x9B2, []) := by decide
theorem decode_call : decode [0x29, 0xB2] = .ok (.call 0x9B2, []) := by decide
theorem decode_seImm : decode [0x3A, 0xC5] = .ok (.seImm 0xA 0xC5, []) := by decide
theorem decode_sneImm : decode [0x4A, 0xC5] = .ok (.sneImm 0xA 0xC5, []) := by decide
theorem decode_seReg : decode [0x5A, 0x30] = .ok (.seReg 0xA 0x3, []) := by decide
theorem decode_ldImm : decode [0x6A, 0xC5] = .ok (.ldImm 0xA 0xC5, []) := by decide
theorem decode_addImm : decode [0x7A, 0xC5] = .ok (.addImm 0xA 0xC5, []) := by decide
theorem decode_ldReg : decode [0x8A, 0x30] = .ok (.ldReg 0xA 0x3, []) := by decide
theorem decode_orReg : decode [0x8A, 0x31] = .ok (.orReg 0xA 0x3, []) := by decide
theorem decode_andReg : decode [0x8A, 0x32] = .ok (.andReg 0xA 0x3, []) := by decide
theorem decode_xorReg : decode [0x8A, 0x33] = .ok (.xorReg 0xA 0x3, []) := by decide
theorem decode_addReg : decode [0x8A, 0x34] = .ok (.addReg 0xA 0x3, []) := by decide
theorem decode_sub : decode [0x8A, 0x35] = .ok (.sub 0xA 0x3, []) := by decide
theorem decode_shr : decode [0x8A, 0x36] = .ok (.shr 0xA 0x3, []) := by decide
theorem decode_subn : decode [0x8A, 0x37] = .ok (.subn 0xA 0x3, []) := by decide
theorem decode_shl : decode [0x8A, 0x3E] = .ok (.shl 0xA 0x3, []) := by decide
theorem decode_sneReg : decode [0x9A, 0x30] = .ok (.sneReg 0xA 0x3, []) := by decide
theorem decode_ldI : decode [0xA9, 0xB2] = .ok (.ldI 0x9B2, []) := by decide
theorem decode_jpV0 : decode [0xB9, 0xB2] = .ok (.jpV0 0x9B2, []) := by decide
theorem decode_rnd : decode [0xCA, 0xC5] = .ok (.rnd 0xA 0xC5, []) := by decide
theorem decode_drw : decode [0xDA, 0x37] = .ok (.drw 0xA 0x3 0x7, []) := by decide
theorem decode_skp : decode [0xEA, 0x9E] = .ok (.skp 0xA, []) := by decide
theorem decode_sknp : decode [0xEA, 0xA1] = .ok (.sknp 0xA, []) := by decide
theorem decode_ldVxDt : decode [0xFA, 0x07] = .ok (.ldVxDt 0xA, []) := by decide
theorem decode_ldVxK : decode [0xFA, 0x0A] = .ok (.ldVxK 0xA, []) := by decide
theorem decode_ldDtVx : decode [0xFA, 0x15] = .ok (.ldDtVx 0xA, []) := by decide
theorem decode_ldStVx : decode [0xFA, 0x18] = .ok (.ldStVx 0xA, []) := by decide
theorem decode_addI : decode [0xFA, 0x1E] = .ok (.addI 0xA, []) := by decide
theorem decode_ldF : decode [0xFA, 0x29] = .ok (.ldF 0xA, []) := by decide
theorem decode_ldB : decode [0xFA, 0x33] = .ok (.ldB 0xA, []) := by decide
theorem decode_ldMemVx : decode [0xFA, 0x55] = .ok (.ldMemVx 0xA, []) := by decide
theorem decode_ldVxMem : decode [0xFA, 0x65] = .ok (.ldVxMem 0xA, []) := by decide

/-- T3, T4, T6, T8, T9, T11, T13: the unrecognised words. -/
theorem decode_rejects_unrecognised :
    ∀ w ∈ [0x0000, 0x00E1, 0x00FE, 0x01E0, 0x0FFF, 0x5121, 0x8128, 0x812F, 0x9001, 0xE19F, 0xE000, 0xF100,
      0xF166, 0xF0FF], decodeTableWord 16 w = none := by decide

/-- The bytes after the first instruction are given back, and one byte alone is no instruction (R70). -/
theorem decode_leaves_the_rest : decode [0x12, 0x00, 0x60, 0x05] = .ok (.jp 0x200, [0x60, 0x05]) ∧
    decode [0x12] = .error .truncated := by decide

theorem table_word_and_fetch_word :
    decodeTableWord 16 0xD015 = some (.drw 0 1 5) ∧ fetch (State.reset.withFetchWord 16 0xD015) = .ok 0xD015 := by decide

/-! ## 3. One step per instruction -/

/-- T102: VF is not written, off-grid cells go too. -/
theorem test_cls : stepped 0x00E0 ((start [(15, 1)]).setDisp [(1, 1), (100, 200)])
    (fun t => (t.disp, t.getV 15, t.pc)) = some ([], 1, 0x202) := by decide
/-- T31. -/
theorem test_ret : stepped 0x00EE (stacked [0x206, 0x300] (start []))
    (fun t => (t.pc, t.stack)) = some (0x206, [0x300]) := by decide
/-- T32. -/
theorem test_ret_underflow : stepped 0x00EE (start [])
    (fun t => (t.fault, t.pc, t.stack)) = some (some (.stackUnderflow 0x200), 0x202, []) := by decide
/-- T15. -/
theorem test_jp : stepped 0x1FFF (start []) (fun t => (t.pc, t.fault)) = some (0xFFF, none) := by decide
/-- T18. -/
theorem test_call : stepped 0x2ABC (start []) (fun t => (t.pc, t.stack)) = some (0xABC, [0x202]) := by decide
/-- T33. -/
theorem test_call_overflow : stepped 0x2300 (limited 2 (stacked [0x202, 0x202] (start [])))
    (fun t => (t.fault, t.pc, t.stack)) = some (some (.stackOverflow 0x200), 0x202, [0x202, 0x202]) := by decide
/-- T20, T21. -/
theorem test_seImm : stepped 0x3A42 (start [(10, 0x42)]) State.pc = some 0x204 ∧
    stepped 0x3A42 (start [(10, 0x43)]) State.pc = some 0x202 := by decide
/-- T30: at 0xFFC the skip leaves PC = 0x1000 and no fault. -/
theorem test_seImm_at_the_top : stepped 0x3000 ((start []).setPc 0xFFC)
    (fun t => (t.pc, t.fault)) = some (0x1000, none) := by decide
/-- T22, T23. -/
theorem test_sneImm : stepped 0x4A42 (start [(10, 0x42)]) State.pc = some 0x202 ∧
    stepped 0x4A42 (start [(10, 0x43)]) State.pc = some 0x204 := by decide
/-- T24, T25. -/
theorem test_seReg : stepped 0x5120 (start [(1, 7), (2, 7)]) State.pc = some 0x204 ∧
    stepped 0x5120 (start [(1, 7), (2, 8)]) State.pc = some 0x202 := by decide
/-- T27, T28. -/
theorem test_sneReg : stepped 0x9120 (start [(1, 7), (2, 7)]) State.pc = some 0x202 ∧
    stepped 0x9120 (start [(1, 7), (2, 8)]) State.pc = some 0x204 := by decide
/-- T34. -/
theorem test_jpV0 : stepped 0xB300 (start [(0, 0xFF)]) State.pc = some 0x3FF := by decide
/-- T35: no wrap, no fault in this step. -/
theorem test_jpV0_highest : stepped 0xBFFF (start [(0, 0xFF)]) (fun t => (t.pc, t.fault)) = some (0x10FE, none) := by decide
/-- T37. -/
theorem test_ldImm : stepped 0x6A7F (start []) (fun t => (t.getV 10, t.pc)) = some (0x7F, 0x202) := by decide
/-- E2: wraps, VF stays 0. -/
theorem test_addImm : stepped 0x7301 (start [(3, 0xFF)]) (fun t => (t.getV 3, t.getV 15)) = some (0, 0) := by decide
/-- T41. -/
theorem test_ldReg : stepped 0x8120 (start [(1, 1), (2, 0xAB), (15, 1)])
    (fun t => (t.getV 1, t.getV 15)) = some (0xAB, 1) := by decide
/-- T42. -/
theorem test_orReg : stepped 0x8121 (start [(1, 0xF0), (2, 0x0F), (15, 1)])
    (fun t => (t.getV 1, t.getV 15)) = some (0xFF, 0) := by decide
/-- T46: the flag overwrites the result. -/
theorem test_orReg_into_vf : stepped 0x8F21 (start [(15, 0xF0), (2, 0x0F)]) (fun t => t.getV 15) = some 0 := by decide
/-- T43. -/
theorem test_andReg : stepped 0x8122 (start [(1, 0xF0), (2, 0x3C), (15, 1)])
    (fun t => (t.getV 1, t.getV 15)) = some (0x30, 0) := by decide
/-- T44. -/
theorem test_xorReg : stepped 0x8123 (start [(1, 0xF0), (2, 0x3C), (15, 1)])
    (fun t => (t.getV 1, t.getV 15)) = some (0xCC, 0) := by decide
/-- T48: 255 is no carry. -/
theorem test_addReg : stepped 0x8124 (start [(1, 0x80), (2, 0x7F), (15, 1)])
    (fun t => (t.getV 1, t.getV 15)) = some (0xFF, 0) := by decide
/-- T52: VF as source. -/
theorem test_addReg_from_vf : stepped 0x81F4 (start [(1, 0xF0), (15, 0x20)])
    (fun t => (t.getV 1, t.getV 15)) = some (0x10, 1) := by decide
/-- T56: equal operands give flag 0. -/
theorem test_sub_equal : stepped 0x8125 (start [(1, 0x33), (2, 0x33), (15, 1)])
    (fun t => (t.getV 1, t.getV 15)) = some (0, 0) := by decide
/-- T58: the difference overwrites the flag. -/
theorem test_sub_into_vf : stepped 0x8F25 (start [(15, 0x10), (2, 1)]) (fun t => t.getV 15) = some 0x0F := by decide
/-- E3. -/
theorem test_shr : stepped 0x8126 (start [(1, 3), (2, 0xFF)])
    (fun t => (t.getV 1, t.getV 15, t.getV 2)) = some (1, 1, 0xFF) := by decide
/-- T69: the shifted value overwrites the flag. -/
theorem test_shr_into_vf : stepped 0x8F26 (start [(15, 2)]) (fun t => t.getV 15) = some 1 := by decide
/-- T62. -/
theorem test_subn : stepped 0x8127 (start [(1, 1), (2, 0x10)])
    (fun t => (t.getV 1, t.getV 15)) = some (0x0F, 1) := by decide
/-- T61. -/
theorem test_subn_borrow : stepped 0x8127 (start [(1, 0x10), (2, 1)])
    (fun t => (t.getV 1, t.getV 15)) = some (0xF1, 0) := by decide
/-- T70. -/
theorem test_shl : stepped 0x812E (start [(1, 0x81)])
    (fun t => (t.getV 1, t.getV 15, t.getV 2)) = some (2, 1, 0) := by decide
/-- T73a. -/
theorem test_shl_into_vf : stepped 0x8F2E (start [(15, 0x40)]) (fun t => t.getV 15) = some 0x80 := by decide
/-- T79. -/
theorem test_ldI : stepped 0xAFFF (start []) State.i = some 0xFFF := by decide
/-- T73b: the draw 0xA7. -/
theorem test_rnd : (rndWith 0xA7 3 0x0F (start [])).getV 3 = 0x07 := by decide
/-- T73c: 0x00 whatever the draw. -/
theorem test_rnd_zero_mask : ∀ r, (rndWith r 3 0x00 (start [(3, 0x55)])).getV 3 = 0 := by
  intro r
  simp [rndWith, State.getV, State.setV, State.setVs]
/-- T107: one cell erased, one lit, VF = 1. -/
theorem test_drw : stepped 0xD121 (placed 0x300 [0xC0] (((start []).setI 0x300).setDisp [(1, 0), (5, 5)]))
    (fun t => (t.disp, t.getV 15)) = some ([(0, 0), (5, 5)], 1) := by decide
/-- T105: no wrap and no clip. -/
theorem test_drw_off_grid : stepped 0xD122 (placed 0x300 [0x01, 0x80] ((start [(1, 255), (2, 255)]).setI 0x300))
    (fun t => (t.disp, t.getV 15)) = some ([(255, 256), (262, 255)], 0) := by decide
/-- T117. -/
theorem test_skp : stepped 0xE39E ((start [(3, 5)]).setKeys 0x0020) State.pc = some 0x204 := by decide
/-- T119: a code above 0xF is never pressed. -/
theorem test_skp_large_code : stepped 0xE39E ((start [(3, 0x15)]).setKeys 0xFFFF) State.pc = some 0x202 := by decide
/-- T120. -/
theorem test_sknp : stepped 0xE3A1 ((start [(3, 5)]).setKeys 0x0020) State.pc = some 0x202 := by decide
/-- T122. -/
theorem test_sknp_large_code : stepped 0xE3A1 ((start [(3, 0x15)]).setKeys 0xFFFF) State.pc = some 0x204 := by decide
/-- T126. -/
theorem test_ldVxDt : stepped 0xFF07 ((start [(15, 9)]).setDt 3) (fun t => (t.getV 15, t.dt)) = some (3, 3) := by decide
/-- T100. -/
theorem test_ldVxK_none : stepped 0xF30A (start [(3, 9)]) (fun t => (t.pc, t.getV 3)) = some (0x200, 9) := by decide
/-- T101. -/
theorem test_ldVxK_one : stepped 0xF30A ((start [(3, 9)]).setKeys 0x0800)
    (fun t => (t.pc, t.getV 3)) = some (0x202, 0x0B) := by decide
/-- T127. -/
theorem test_ldDtVx : stepped 0xF315 (start [(3, 0xFF)]) State.dt = some 0xFF := by decide
/-- T128. -/
theorem test_ldStVx : stepped 0xF318 (start [(3, 1)]) State.st = some 1 := by decide
/-- T83: wraps, VF unchanged. -/
theorem test_addI : stepped 0xF31E ((start [(3, 0xFF), (15, 9)]).setI 0xFF01)
    (fun t => (t.i, t.getV 15)) = some (0, 9) := by decide
/-- T77: no mask. -/
theorem test_ldF : stepped 0xF329 (start [(3, 0xFF)]) State.i = some 0x04FB := by decide
/-- E4. -/
theorem test_ldB : stepped 0xF333 ((start [(3, 156)]).setI 0x300)
    (fun t => (t.mem.readBytes 0x300 3, t.i)) = some ([1, 5, 6], 0x300) := by decide
/-- T90: no partial write. -/
theorem test_ldB_at_the_top : stepped 0xF333 ((start [(3, 7)]).setI 0xFFE)
    (fun t => (t.fault, t.mem.readBytes 0xFFE 2)) = some (some (.dataOutOfBounds 0x200 0x1000), [0, 0]) := by decide
/-- T92: V3 is not stored. -/
theorem test_ldMemVx : stepped 0xF255 ((start [(0, 0x11), (1, 0x22), (2, 0x33), (3, 0x44)]).setI 0x300)
    (fun t => (t.mem.readBytes 0x300 4, t.i)) = some ([0x11, 0x22, 0x33, 0], 0x300) := by decide
/-- T94: no partial write. -/
theorem test_ldMemVx_at_the_top : stepped 0xF155 ((start [(0, 0x11), (1, 0x22)]).setI 0xFFF)
    (fun t => (t.fault, t.mem.read 0xFFF)) = some (some (.dataOutOfBounds 0x200 0x1000), 0) := by decide
/-- T98: V3 is not loaded. -/
theorem test_ldVxMem : stepped 0xF265 (placed 0x300 [1, 2, 3, 4] ((start [(3, 0x99)]).setI 0x300))
    (fun t => (t.getV 0, t.getV 1, t.getV 2, t.getV 3)) = some (1, 2, 3, 0x99) := by decide
/-- T99b: the default font. -/
theorem test_ldVxMem_font : stepped 0xFF65 (placed 0 (Config.fontLow.take 16) (start []))
    (fun t => t.v.toList) = some [0xF0, 0x90, 0x90, 0x90, 0xF0, 0x20, 0x60, 0x20, 0x20, 0x70, 0xF0, 0x10, 0xF0, 0x80, 0xF0,
      0xF0] := by decide

/-- T129 to T131: the last legal fetch, and the fetch above it. -/
theorem test_fetch_at_the_top : stepped 0x6A55 ((start []).setPc 0xFFE) (fun t => (t.getV 10, t.pc)) = some (0x55, 0x1000) ∧
    seen (fun t => (t.fault, t.pc)) (step ((start []).setPc 0xFFF)) = some (some (.fetchOutOfBounds 0xFFF), 0xFFF) := by
  decide
/-- T132: an odd PC. -/
theorem test_fetch_odd : seen (fun t => (t.getV 10, t.pc)) (step (placed 0x200 [0x12, 0x6A, 0x55] ((start []).setPc 0x201))) =
    some (0x55, 0x203) := by decide
/-- T3: a no-operation. -/
theorem test_unrecognised : stepped 0x0000 (start [(1, 7)]) (fun t => (t.pc, t.fault, t.getV 1)) = some (0x202, none, 7) := by decide
/-- T133: ten steps at 0x200, one tick with a floor at 0. -/
theorem test_cycle : seen (fun t => (t.pc, t.dt, t.st)) (cycle (placed 0x200 [0x12, 0x00] ((start []).setDt 1))) =
    some (0x200, 0, 0) := by decide
/-- T138: the fourth step faults, no tick. -/
theorem test_cycle_fault : seen (fun t => (t.fault, t.getV 0, t.pc, t.dt))
    (cycle (placed 0x200 [0x60, 0x05, 0x60, 0x05, 0x60, 0x05, 0x00, 0xEE] ((start []).setDt 5))) =
      some (some (.stackUnderflow 0x206), 5, 0x208, 5) := by decide
/-- T136. -/
theorem test_toggle_pause : (togglePause ((start []).setRun .paused)).run = .playing := by decide

/-! ## 4. Witnesses: for each statement with hypotheses, concrete inputs that meet them, at the boundary values of each clause -/

/-- A core that has begun to run, at `pc`, all memory 0. -/
def running (pc : Word) : State := ((start []).setPc pc).setHasRun true

/-- A faulted core. -/
def faulted : State := (running 0x202).setFault (some (.stackUnderflow 0x200))

/-- A Paused core. -/
def pausedCore : State := (running 0x200).setRun .paused

/-- A core at 0x200 with the instruction word `w` there. -/
def at200 (w : Nat) : State := (running 0x200).withFetchWord 16 w

theorem witness_EveryDecodedWordEncodesBack : decodeWord 0x8AF6 = .ok (.shr 0xA 0xF) := by decide

/-- A decoded word, and a word a row accepts (the lowest and the highest of the last row). -/
theorem witness_DecoderFollowsOpcodeMap : decodeWord 0xFF65 = .ok (.ldVxMem 0xF) ∧
    (⟨0xF0FF, 0xF065⟩ : Row) ∈ opcodeMap ∧ Row.accepts ⟨0xF0FF, 0xF065⟩ 0xF065 = true ∧
    Row.accepts ⟨0xF0FF, 0xF065⟩ 0xFF65 = true := by decide

/-- The no-operation clause at 0x200 and at the last legal fetch address. -/
theorem witness_UnrecognisedWordsAreNoOperations :
    (Running (running 0x200) ∧ AtUnrecognised (running 0x200)) ∧ (Running (running 0xFFE) ∧ AtUnrecognised (running 0xFFE)) :=
  ⟨⟨⟨rfl, rfl⟩, by decide, 0, by decide⟩, ⟨rfl, rfl⟩, by decide, 0, by decide⟩

/-- Words at the edges of R76's list: every one but the last two is unrecognised. -/
theorem witness_unrecognised_edges :
    (∀ w ∈ [0x00DF, 0x00ED, 0x00EF, 0x0FFF, 0x5001, 0x5FFF, 0x8FFD, 0x8FFF, 0x9FFF, 0xE0A2, 0xF006, 0xFFFF],
      decodeTableWord 16 w = none) ∧
    decodeTableWord 16 0x8FF7 = some (.subn 0xF 0xF) ∧ decodeTableWord 16 0x8FFE = some (.shl 0xF 0xF) := by decide

/-- Each of the four clauses, the fetch clauses at 0xFFE and 0xFFF. -/
theorem witness_StepIsFetchDecodeExecute :
    (Running (at200 0x1200) ∧ AtInstr (.jp 0x200) (at200 0x1200)) ∧
    (Running (running 0xFFE) ∧ AtUnrecognised (running 0xFFE)) ∧
    (Running (running 0xFFF) ∧ 0xFFE < (running 0xFFF).pc.toNat) ∧ ¬ Running faulted ∧ ¬ Running pausedCore :=
  ⟨⟨⟨rfl, rfl⟩, by decide, by decide⟩, ⟨⟨rfl, rfl⟩, by decide, 0, by decide⟩, ⟨⟨rfl, rfl⟩, by decide⟩,
    fun h => absurd h.1 (by decide), fun h => absurd h.2 (by decide)⟩

theorem witness_FaultedCoreOnlyInitialises : faulted.fault ≠ none := by decide

theorem witness_PausedCoreRunsNothing : pausedCore.run = .paused := rfl

theorem witness_FetchReadsBigEndianOrFaults : (running 4094).pc.toNat ≤ 4094 ∧
    (Running (running 4095) ∧ 4095 ≤ (running 4095).pc.toNat) ∧ (Running (running 0xFFFF) ∧ 4095 ≤ (running 0xFFFF).pc.toNat) :=
  ⟨by decide, ⟨⟨rfl, rfl⟩, by decide⟩, ⟨rfl, rfl⟩, by decide⟩

/-- An instruction that leaves no fault, and an unrecognised word. -/
theorem witness_PcAfterEveryInstruction :
    (Running (at200 0xF00A) ∧ AtInstr (.ldVxK 0) (at200 0xF00A) ∧ seen State.fault (step (at200 0xF00A)) = some none) ∧
    AtUnrecognised (running 0xFFE) :=
  ⟨⟨⟨rfl, rfl⟩, ⟨by decide, by decide⟩, by decide⟩, by decide, 0, by decide⟩

theorem witness_ZeroedMemoryIsWalkedThrough : Running (running 0xFFE) ∧ (running 0xFFE).pc.toNat ≤ 0xFFE ∧
    (running 0xFFE).mem.read 0xFFE = 0 ∧ (running 0xFFE).mem.read 0xFFF = 0 ∧ 0xFFE < (running 0xFFF).pc.toNat :=
  ⟨⟨rfl, rfl⟩, by decide, by decide, by decide, by decide⟩

theorem witness_RetPopsOrUnderflows : (stacked [0x202] (running 0x202)).stack = [0x202] ∧ (running 0x202).stack = [] := by
  decide

/-- No limit, one entry below the limit, and at the limit. -/
theorem witness_CallPushesTheReturnAddress :
    (running 0x202).stackLimit ≠ some (running 0x202).stack.length ∧
    (limited 2 (stacked [0x202] (running 0x202))).stackLimit ≠ some 1 ∧
    (limited 2 (stacked [0x202, 0x202] (running 0x202))).stackLimit = some [0x202, 0x202].length := by decide

/-- The words of families 5 and 9 with a non-zero low digit. -/
theorem witness_RegisterSkipsCompareVxWithVy : ∀ w ∈ [(0x5001 : Word), 0x500F, 0x9001, 0x9FFF],
    (w.toNat / 4096 = 0x5 ∨ w.toNat / 4096 = 0x9) ∧ w.toNat % 16 ≠ 0 := by simp

/-- The clause for x ≠ F of the five instructions with a result and a flag. -/
theorem witness_flag_clauses : (1 : Nibble) ≠ 15 := by decide

/-- nn = 0x0F has bit 4 clear. -/
theorem witness_RandomByteIsMaskedByNn : (0x0F : Byte).getLsbD 4 = false := by decide

theorem witness_BcdStoresThreeDigits : ((running 0x202).setI 0xFFD).i.toNat + 2 ≤ 4095 ∧
    4095 < ((running 0x202).setI 0xFFE).i.toNat + 2 := by decide

/-- I + x = 4095 and 4096, with x = F. -/
theorem witness_StoreRegistersWritesV0ToVx : ((running 0x202).setI 0xFF0).i.toNat + (15 : Nibble).toNat ≤ 4095 ∧
    4095 < ((running 0x202).setI 0xFF1).i.toNat + (15 : Nibble).toNat ∧ (15 : Nibble).toNat ≤ (15 : Nibble).toNat := by decide

theorem witness_LoadRegistersReadsV0ToVx : ((running 0x202).setI 0xFFF).i.toNat + (0 : Nibble).toNat ≤ 4095 ∧
    4095 < ((running 0x202).setI 0xFFF).i.toNat + (1 : Nibble).toNat := by decide

/-- A cell lit at (1, 0), I = 0x300 and a sprite byte 0xC0 there: the sprite at (0, 0) meets it, the one at (4, 4) does not. -/
def drawing : State := placed 0x300 [0xC0] (((start [(2, 4)]).setI 0x300).setDisp [(1, 0)])

/-- n = 0 with I = 0xFFFF, n = 15 at the last legal I, a sprite with a lit cell, one without, and n = 15 one byte too high. -/
theorem witness_DrawTogglesTheSpriteCells :
    (0 : Nibble).toNat = 0 ∧ ((running 0x202).setI 0xFF1).i.toNat + (15 : Nibble).toNat - 1 ≤ 4095 ∧
    (∃ p, InSprite 0 0 1 drawing p ∧ drawing.disp.lit p = true) ∧
    (¬ ∃ p, InSprite 2 2 0 drawing p ∧ drawing.disp.lit p = true) ∧
    1 ≤ (15 : Nibble).toNat ∧ 4095 < ((running 0x202).setI 0xFF2).i.toNat + (15 : Nibble).toNat - 1 :=
  ⟨by decide, by decide, ⟨(1, 0), ⟨0, 1, by decide, by decide, by decide, by decide⟩, by decide⟩,
    fun ⟨_, ⟨_, _, h, _⟩, _⟩ => absurd h (by simp), by decide, by decide⟩

/-- E5: a first draw, and a second at the state it leaves, once with an unlit sprite cell before and once (n = 0) without. -/
theorem witness_DrawingTwiceErases :
    (∃ t, exec (.drw 0 0 1) drawing = .next t ∧ t.i = drawing.i ∧ t.getV 0 = drawing.getV 0 ∧
      t.mem.read 0x300 = drawing.mem.read 0x300) ∧ drawing.i.toNat + (1 : Nibble).toNat - 1 ≤ 4095 ∧
    (∃ p, InSprite 0 0 1 drawing p ∧ drawing.disp.lit p = false) ∧
    (¬ ∃ p, InSprite 0 0 0 drawing p ∧ drawing.disp.lit p = false) :=
  ⟨⟨_, rfl, by decide, by decide, by decide⟩, by decide,
    ⟨(0, 0), ⟨0, 0, by decide, by decide, by decide, by decide⟩, by decide⟩,
    fun ⟨_, ⟨_, _, h, _⟩, _⟩ => absurd h (by simp)⟩

/-- Every sprite cell lit before: the hypotheses of the statement that is expected to fail (log entry 16). -/
theorem witness_SecondDrawOfANonEmptySpriteCollides :
    (∃ t w, exec (.drw 0 0 1) (drawing.setDisp [(0, 0), (1, 0)]) = .next t ∧ exec (.drw 0 0 1) t = .next w ∧
      t.i = drawing.i ∧ t.getV 0 = drawing.getV 0 ∧ t.mem.read 0x300 = drawing.mem.read 0x300) ∧
    (∃ p, InSprite 0 0 1 (drawing.setDisp [(0, 0), (1, 0)]) p) :=
  ⟨⟨_, _, rfl, rfl, by decide, by decide, by decide⟩, ⟨(0, 0), 0, 0, by decide, by decide, by decide, by decide⟩⟩

/-- No key, the lowest key alone, several keys. -/
theorem witness_KeyWaitRetriesOrReportsAPressedKey : (running 0x202).keys = 0 ∧ ((running 0x202).setKeys 0x0001).keys ≠ 0 ∧
    ((running 0x202).setKeys 0x8084).keys ≠ 0 := by decide

/-- A next state with the latch as before, and one with the latch changed. -/
theorem witness_EveryInstructionKeepsTheRest :
    (∃ t, exec .cls (running 0x202) = .next t ∧ t.fault = (running 0x202).fault) ∧
    (∃ t, exec .ret (running 0x202) = .next t ∧ t.fault ≠ (running 0x202).fault) :=
  ⟨⟨_, rfl, by decide⟩, ⟨_, rfl, by decide⟩⟩

/-- Each of the four faults of 60_exceptions.md R200 from a running core, as the faults statements ask. -/
theorem witness_FaultsOccurOnlyAsListed :
    (Running (running 0xFFF) ∧ seen State.fault (step (running 0xFFF)) = some (some (.fetchOutOfBounds 0xFFF))) ∧
    (Running (at200 0x00EE) ∧ seen State.fault (step (at200 0x00EE)) = some (some (.stackUnderflow 0x200))) ∧
    (Running (limited 0 (at200 0x2300)) ∧
      seen State.fault (step (limited 0 (at200 0x2300))) = some (some (.stackOverflow 0x200))) ∧
    (Running ((at200 0xD001).setI 0x1000) ∧
      seen State.fault (step ((at200 0xD001).setI 0x1000)) = some (some (.dataOutOfBounds 0x200 0x1000))) :=
  ⟨⟨⟨rfl, rfl⟩, by decide⟩, ⟨⟨rfl, rfl⟩, by decide⟩, ⟨⟨rfl, rfl⟩, by decide⟩, ⟨⟨rfl, rfl⟩, by decide⟩⟩

/-- A fault of the fetch and one of an instruction. -/
theorem witness_FaultsArePrecise :
    (∃ t, Running (running 0xFFF) ∧ step (running 0xFFF) = .next t ∧ t.fault ≠ none) ∧
    (∃ t, Running (at200 0x00EE) ∧ step (at200 0x00EE) = .next t ∧ t.fault ≠ none) :=
  ⟨⟨_, ⟨rfl, rfl⟩, rfl, by decide⟩, ⟨_, ⟨rfl, rfl⟩, rfl, by decide⟩⟩

/-- A step that changes DT and one that changes ST. -/
theorem witness_StepMovesTimersOnlyByTimerInstructions :
    (∃ t, step ((at200 0xF315).setV 3 0xFF) = .next t ∧ t.dt ≠ ((at200 0xF315).setV 3 0xFF).dt) ∧
    (∃ t, step ((at200 0xF318).setV 3 1) = .next t ∧ t.st ≠ ((at200 0xF318).setV 3 1).st) :=
  ⟨⟨_, rfl, by decide⟩, ⟨_, rfl, by decide⟩⟩

theorem witness_StepNeverWritesRunOrInputs : ∃ t, step (at200 0x1200) = .next t := ⟨_, rfl⟩

/-- One entry below the limit; `u` is the state the call left. -/
theorem witness_CallThenReturnComesBack : (limited 1 (running 0x202)).stackLimit ≠ some (running 0x202).stack.length ∧
    ∃ t, exec (.call 0x300) (limited 1 (running 0x202)) = .next t ∧ t.stack = [0x202] :=
  ⟨by decide, _, rfl, by decide⟩

/-- Fx55 at the highest I with two bytes at PC, that are an instruction, or (V0 = V1 = 0) none. -/
theorem witness_NextStepRunsTheStoredBytes :
    Running ((running 0xFFE).setI 0xFFE) ∧ (0 : Nibble).toNat < (1 : Nibble).toNat ∧
    ((running 0xFFE).setI 0xFFE).i.toNat + (0 : Nibble).toNat = ((running 0xFFE).setI 0xFFE).pc.toNat ∧
    ((running 0xFFE).setI 0xFFE).i.toNat + (1 : Nibble).toNat ≤ 4095 ∧
    decode [(start [(0, 0x12)]).getV 0, (start [(0, 0x12)]).getV 1] = .ok (.jp 0x200, []) ∧
    decode [(start []).getV 0, (start []).getV 1] = .error (.unrecognised 0) :=
  ⟨⟨rfl, rfl⟩, by decide, by decide, by decide, by decide, by decide⟩

/-- Fx33 with its first and its second digit at PC, at the highest I. -/
theorem witness_NextStepRunsTheStoredBytes_bcd :
    Running ((running 0xFFE).setI 0xFFD) ∧
    ((running 0xFFD).setI 0xFFD).i.toNat + 0 = ((running 0xFFD).setI 0xFFD).pc.toNat ∧
    ((running 0xFFE).setI 0xFFD).i.toNat + 1 = ((running 0xFFE).setI 0xFFD).pc.toNat ∧
    ((running 0xFFE).setI 0xFFD).i.toNat + 2 ≤ 4095 :=
  ⟨⟨rfl, rfl⟩, by decide, by decide, by decide⟩

/-- A self-loop: each of ten steps answers the state itself, with no fault. -/
theorem witness_CycleIsTenStepsThenOneTick_chain : Running (at200 0x1200) ∧
    step (at200 0x1200) = .next (at200 0x1200) ∧ (at200 0x1200).fault = none :=
  ⟨⟨rfl, rfl⟩, rfl, rfl⟩

/-- The states of a walk through zeroed memory from 0xFEE whose tenth step faults. -/
def walk (k : Nat) : State :=
  if k = 10 then (running 0x1000).setFault (some (.fetchOutOfBounds 0x1000)) else running (BitVec.ofNat 16 (0xFEE + 2 * k))

/-- A fault at the tenth step (n = 9), and one at the first (n = 0). -/
theorem witness_CycleIsTenStepsThenOneTick_fault : Running (walk 0) ∧
    (step (walk 0) = .next (walk 1) ∧ step (walk 1) = .next (walk 2) ∧ step (walk 2) = .next (walk 3) ∧
      step (walk 3) = .next (walk 4) ∧ step (walk 4) = .next (walk 5) ∧ step (walk 5) = .next (walk 6) ∧
      step (walk 6) = .next (walk 7) ∧ step (walk 7) = .next (walk 8) ∧ step (walk 8) = .next (walk 9)) ∧
    step (walk 9) = .next (walk 10) ∧ (walk 10).fault ≠ none ∧
    step (running 0xFFF) = .next ((running 0xFFF).setFault (some (.fetchOutOfBounds 0xFFF))) :=
  ⟨⟨rfl, rfl⟩, ⟨rfl, rfl, rfl, rfl, rfl, rfl, rfl, rfl, rfl⟩, rfl, by decide, rfl⟩

/-- Playing, Paused, faulted. -/
theorem witness_TogglePauseFlipsRunOnly : (State.reset.fault = none ∧ State.reset.run = .playing) ∧
    (pausedCore.fault = none ∧ pausedCore.run = .paused) ∧ faulted.fault ≠ none := by decide

/-- The boot window, and the first and last byte of the font. -/
theorem witness_LoadFontWritesTheGlyphTable : State.reset.hasRun = false ∧ State.reset.fault = none ∧ 0 < 80 ∧ 79 < 80 := by
  decide

/-- T142, T143: the longest program and one byte more. -/
theorem witness_LoadProgramWritesOrRefuses : State.reset.hasRun = false ∧ State.reset.fault = none ∧
    (List.replicate 3584 (0 : Byte)).length ≤ 3584 ∧ 3584 < (List.replicate 3585 (0 : Byte)).length := by
  rw [List.length_replicate, List.length_replicate]
  exact ⟨rfl, rfl, le_refl _, Nat.lt_succ_self _⟩

/-- A step, a cycle, an operation other than initialize with the boot window closed. -/
theorem witness_LoadsAreRefusedAfterTheFirstStep :
    (∃ t, step State.reset = .next t) ∧ (∃ t, cycle pausedCore = .next t) ∧ (running 0x200).hasRun = true ∧
    Operation.togglePause ≠ .initialise ∧ (∃ t, perform .togglePause (running 0x200) = .next t) ∧
    ([] : List Byte).length ≤ 3584 :=
  ⟨⟨_, rfl⟩, ⟨_, rfl⟩, rfl, by decide, ⟨_, rfl⟩, by decide⟩

theorem witness_BootSequenceLaysOutMemory : (List.replicate 3584 (0 : Byte)).length ≤ 3584 ∧ ([] : List Byte).length ≤ 3584 := by
  rw [List.length_replicate]
  decide

/-- The invariants hold of a core with bytes at both ends of memory and a lit cell at the corner of the coordinate domain. -/
def edge : State :=
  (stacked [0x1000, 0x002] ((placed 0x000 [0xF0] (placed 0xFFF [0x01] (start []))).setPc 0x10FE)).setDisp [(0, 0), (262, 269)]

theorem witness_StepKeepsMemoryCanonical : MemoryCanonical edge ∧ ∃ t, step edge = .next t := ⟨by decide, _, rfl⟩

theorem witness_StepKeepsDisplayCanonical : DisplayCanonical edge ∧ ∃ t, step edge = .next t := ⟨by decide, _, rfl⟩

theorem edge_stack : edge.stack = [0x1000, 0x002] := rfl

theorem edge_pc : edge.pc = 0x10FE := rfl

theorem edge_control : ControlInRange edge := by
  rw [ControlInRange, edge_stack, edge_pc]
  simp

theorem witness_StepKeepsPcAndStackInRange : ControlInRange edge ∧ ∃ t, step edge = .next t := ⟨edge_control, _, rfl⟩

/-- A call at one entry below the limit. -/
theorem witness_StepKeepsStackWithinLimit : StackWithinLimit (limited 1 (at200 0x2300)) ∧
    ∃ t, step (limited 1 (at200 0x2300)) = .next t :=
  ⟨by decide, _, rfl⟩

theorem witness_EveryOperationKeepsTheInvariants : Inv edge ∧ ∃ t, perform (.step 0) edge = .next t :=
  ⟨⟨by decide, by decide, edge_control, by decide, by decide⟩, _, rfl⟩

/-- The empty contents, whose one canonical form is the empty list. -/
theorem witness_CanonicalFormsAreUnique : Memory.wf [] ∧ Display.wf [] ∧ edge.mem.wf ∧ edge.disp.wf := by decide

end Sys2Proof.Tests
end

section
/-! Frames of the updates, of every instruction and of a step; the call stack under a step (O57). -/

namespace Sys2Proof

open Machine

/-! ## Frames compose -/

section Frames

variable {p q : Part} {ps : List Part} {s t u : State}

theorem Same.refl (p : Part) (s : State) : Same p s s := by
  cases p <;> simp [Same]

theorem Same.trans (hst : Same p s t) (htu : Same p t u) : Same p s u := by
  cases p with
  | mem => exact fun a => (htu a).trans (hst a)
  | v => exact fun j => (htu j).trans (hst j)
  | _ => exact Eq.trans htu hst

theorem UnchangedExcept.refl (ps : List Part) (s : State) : UnchangedExcept ps s s :=
  fun p _ => Same.refl p s

/-- A frame grows by an update of one element that it names. -/
theorem UnchangedExcept.update (hst : UnchangedExcept ps s t) (hq : q ∈ ps) (htu : UnchangedExcept [q] t u) :
    UnchangedExcept ps s u := by
  intro p hp
  have hpq : p ∉ [q] := fun h => hp (List.mem_singleton.1 h ▸ hq)
  exact (hst p hp).trans (htu p hpq)

/-! ## One frame per update: the frame before it, for a list that names the updated element -/

theorem UnchangedExcept.setMem (h : UnchangedExcept ps s t) (hq : .mem ∈ ps) (m : Memory) :
    UnchangedExcept ps s (t.setMem m) :=
  h.update hq fun p hp => by cases p <;> simp [Same] at hp ⊢

theorem UnchangedExcept.setVs (h : UnchangedExcept ps s t) (hq : .v ∈ ps) (w : Vector Byte 16) :
    UnchangedExcept ps s (t.setVs w) :=
  h.update hq fun p hp => by cases p <;> simp [Same] at hp ⊢

theorem UnchangedExcept.setV (h : UnchangedExcept ps s t) (hq : .v ∈ ps) (x : Nibble) (b : Byte) :
    UnchangedExcept ps s (t.setV x b) :=
  h.setVs hq _

theorem UnchangedExcept.setI (h : UnchangedExcept ps s t) (hq : .i ∈ ps) (w : Word) :
    UnchangedExcept ps s (t.setI w) :=
  h.update hq fun p hp => by cases p <;> simp [Same] at hp ⊢

theorem UnchangedExcept.setPc (h : UnchangedExcept ps s t) (hq : .pc ∈ ps) (w : Word) :
    UnchangedExcept ps s (t.setPc w) :=
  h.update hq fun p hp => by cases p <;> simp [Same] at hp ⊢

theorem UnchangedExcept.setStack (h : UnchangedExcept ps s t) (hq : .stack ∈ ps) (l : List Word) :
    UnchangedExcept ps s (t.setStack l) :=
  h.update hq fun p hp => by cases p <;> simp [Same] at hp ⊢

theorem UnchangedExcept.setDt (h : UnchangedExcept ps s t) (hq : .dt ∈ ps) (b : Byte) :
    UnchangedExcept ps s (t.setDt b) :=
  h.update hq fun p hp => by cases p <;> simp [Same] at hp ⊢

theorem UnchangedExcept.setSt (h : UnchangedExcept ps s t) (hq : .st ∈ ps) (b : Byte) :
    UnchangedExcept ps s (t.setSt b) :=
  h.update hq fun p hp => by cases p <;> simp [Same] at hp ⊢

theorem UnchangedExcept.setDisp (h : UnchangedExcept ps s t) (hq : .disp ∈ ps) (d : Display) :
    UnchangedExcept ps s (t.setDisp d) :=
  h.update hq fun p hp => by cases p <;> simp [Same] at hp ⊢

theorem UnchangedExcept.setDraws (h : UnchangedExcept ps s t) (hq : .draws ∈ ps) (n : Nat) :
    UnchangedExcept ps s (t.setDraws n) :=
  h.update hq fun p hp => by cases p <;> simp [Same] at hp ⊢

theorem UnchangedExcept.skipIf (h : UnchangedExcept ps s t) (hq : .pc ∈ ps) (c : Bool) :
    UnchangedExcept ps s (skipIf c t) := by
  rw [skipIf_eq]
  exact h.setPc hq _

end Frames

/-! ## The instructions that branch: one equation per branch -/

section Branches

variable {s : State} {f : Fault}

theorem execRet_of_nil (h : s.stack = []) : execRet s = raise (.stackUnderflow (pc0 s)) s := by
  rw [execRet, h]

theorem execRet_of_cons {top : Word} {rest : List Word} (h : s.stack = top :: rest) :
    execRet s = .next ((s.setStack rest).setPc top) := by
  rw [execRet, h]

theorem execCall_of_full (nnn : Addr12) (h : s.stackLimit = some s.stack.length) :
    execCall nnn s = raise (.stackOverflow (pc0 s)) s := by
  rw [execCall, if_pos ((stackFull_iff s).2 h)]

theorem execCall_of_not_full (nnn : Addr12) (h : s.stackLimit ≠ some s.stack.length) :
    execCall nnn s = .next ((s.setStack (s.pc :: s.stack)).setPc (zextAddr nnn)) := by
  rw [execCall, if_neg (mt (stackFull_iff s).1 h)]

theorem execDrw_of_fault (x y : Nibble) {n : Nibble} (h : accessFault n.toNat s = some f) :
    execDrw x y n s = raise f s := by
  rw [execDrw, h]

theorem execDrw_of_no_fault (x y : Nibble) {n : Nibble} (h : accessFault n.toNat s = none) :
    execDrw x y n s =
      .next ((s.setDisp (drawSprite (s.getV x) (s.getV y) (s.mem.readBytes s.i.toNat n.toNat) s.disp).1).setV vf
        (flagByte (drawSprite (s.getV x) (s.getV y) (s.mem.readBytes s.i.toNat n.toNat) s.disp).2)) := by
  rw [execDrw, h]

theorem execLdB_of_fault (x : Nibble) (h : accessFault 3 s = some f) : execLdB x s = raise f s := by
  rw [execLdB, h]

theorem execLdB_of_no_fault (x : Nibble) (h : accessFault 3 s = none) :
    execLdB x s = .next (s.setMem (s.mem.writeBytes s.i.toNat (bcdDigits (s.getV x)))) := by
  rw [execLdB, h]

theorem execLdMemVx_of_fault {x : Nibble} (h : accessFault (x.toNat + 1) s = some f) :
    execLdMemVx x s = raise f s := by
  rw [execLdMemVx, h]

theorem execLdMemVx_of_no_fault {x : Nibble} (h : accessFault (x.toNat + 1) s = none) :
    execLdMemVx x s = .next (s.setMem (s.mem.writeBytes s.i.toNat (regsUpTo x s))) := by
  rw [execLdMemVx, h]

theorem execLdVxMem_of_fault {x : Nibble} (h : accessFault (x.toNat + 1) s = some f) :
    execLdVxMem x s = raise f s := by
  rw [execLdVxMem, h]

theorem execLdVxMem_of_no_fault {x : Nibble} (h : accessFault (x.toNat + 1) s = none) :
    execLdVxMem x s = .next (s.setVs (fillRegs 0 (s.mem.readBytes s.i.toNat (x.toNat + 1)) s.v)) := by
  rw [execLdVxMem, h]

theorem execLdVxK_of_no_key (x : Nibble) (h : pressedKeys s.keys = []) :
    execLdVxK x s = .next (s.setPc (s.pc - 2)) := by
  rw [execLdVxK, h]

theorem execLdVxK_of_one_key (x : Nibble) {k : Byte} (h : pressedKeys s.keys = [k]) :
    execLdVxK x s = .next (s.setV x k) := by
  rw [execLdVxK, h]

theorem execLdVxK_of_keys (x : Nibble) {k l : Byte} {ks : List Byte} (h : pressedKeys s.keys = k :: l :: ks) :
    execLdVxK x s =
      .next ((s.setV x (chooseKey (Config.keySelect s.draws s.keys) k (l :: ks))).setDraws (s.draws + 1)) := by
  rw [execLdVxK, h]

end Branches

/-! ## What an instruction can do -/

/-- The instruction answers a state that differs from `s` in the elements it may write alone. -/
def WritesOnly (i : Instr) (s : State) : Prop := ∃ t, exec i s = .next t ∧ UnchangedExcept i.writes s t

/-- The instruction raises a fault in `s`. -/
def Raises (i : Instr) (s : State) : Prop := ∃ f, exec i s = raise f s

section Instructions

variable (s : State)

theorem ret_writes_or_raises : WritesOnly .ret s ∨ Raises .ret s := by
  cases h : s.stack with
  | nil => exact .inr ⟨_, execRet_of_nil h⟩
  | cons top rest =>
    exact .inl ⟨_, execRet_of_cons h, ((UnchangedExcept.refl _ s).setStack (.tail _ (.head _)) _).setPc (.head _) _⟩

theorem call_writes_or_raises (nnn : Addr12) : WritesOnly (.call nnn) s ∨ Raises (.call nnn) s := by
  by_cases h : s.stackLimit = some s.stack.length
  · exact .inr ⟨_, execCall_of_full nnn h⟩
  · exact .inl ⟨_, execCall_of_not_full nnn h,
      ((UnchangedExcept.refl _ s).setStack (.tail _ (.head _)) _).setPc (.head _) _⟩

theorem drw_writes_or_raises (x y n : Nibble) : WritesOnly (.drw x y n) s ∨ Raises (.drw x y n) s := by
  cases h : accessFault n.toNat s with
  | some f => exact .inr ⟨f, execDrw_of_fault x y h⟩
  | none =>
    exact .inl ⟨_, execDrw_of_no_fault x y h,
      ((UnchangedExcept.refl _ s).setDisp (.tail _ (.head _)) _).setV (.head _) _ _⟩

theorem ldB_writes_or_raises (x : Nibble) : WritesOnly (.ldB x) s ∨ Raises (.ldB x) s := by
  cases h : accessFault 3 s with
  | some f => exact .inr ⟨f, execLdB_of_fault x h⟩
  | none => exact .inl ⟨_, execLdB_of_no_fault x h, (UnchangedExcept.refl _ s).setMem (.head _) _⟩

theorem ldMemVx_writes_or_raises (x : Nibble) : WritesOnly (.ldMemVx x) s ∨ Raises (.ldMemVx x) s := by
  cases h : accessFault (x.toNat + 1) s with
  | some f => exact .inr ⟨f, execLdMemVx_of_fault h⟩
  | none => exact .inl ⟨_, execLdMemVx_of_no_fault h, (UnchangedExcept.refl _ s).setMem (.head _) _⟩

theorem ldVxMem_writes_or_raises (x : Nibble) : WritesOnly (.ldVxMem x) s ∨ Raises (.ldVxMem x) s := by
  cases h : accessFault (x.toNat + 1) s with
  | some f => exact .inr ⟨f, execLdVxMem_of_fault h⟩
  | none => exact .inl ⟨_, execLdVxMem_of_no_fault h, (UnchangedExcept.refl _ s).setVs (.head _) _⟩

theorem ldVxK_writesOnly (x : Nibble) : WritesOnly (.ldVxK x) s := by
  have hs := UnchangedExcept.refl (Instr.writes (.ldVxK x)) s
  match h : pressedKeys s.keys with
  | [] => exact ⟨_, execLdVxK_of_no_key x h, hs.setPc (.tail _ (.head _)) _⟩
  | [k] => exact ⟨_, execLdVxK_of_one_key x h, hs.setV (.head _) _ _⟩
  | k :: l :: ks =>
    exact ⟨_, execLdVxK_of_keys x h, (hs.setV (.head _) _ _).setDraws (.tail _ (.tail _ (.head _))) _⟩

/-- Every instruction answers a next state: it writes only what `Instr.writes` names, or it raises and writes the latch alone
(60_exceptions.md R208). -/
theorem exec_writes_or_raises (i : Instr) : WritesOnly i s ∨ Raises i s := by
  have hs := UnchangedExcept.refl i.writes s
  cases i with
  | ret => exact ret_writes_or_raises s
  | call nnn => exact call_writes_or_raises s nnn
  | drw x y n => exact drw_writes_or_raises s x y n
  | ldB x => exact ldB_writes_or_raises s x
  | ldMemVx x => exact ldMemVx_writes_or_raises s x
  | ldVxMem x => exact ldVxMem_writes_or_raises s x
  | ldVxK x => exact .inl (ldVxK_writesOnly s x)
  | cls => exact .inl ⟨_, rfl, hs.setDisp (.head _) _⟩
  | jp | jpV0 => exact .inl ⟨_, rfl, hs.setPc (.head _) _⟩
  | seImm | sneImm | seReg | sneReg | skp | sknp => exact .inl ⟨_, rfl, hs.skipIf (.head _) _⟩
  | ldImm | addImm | ldReg | ldVxDt => exact .inl ⟨_, rfl, hs.setV (.head _) _ _⟩
  | orReg | andReg | xorReg | addReg | sub | shr | subn | shl =>
    exact .inl ⟨_, rfl, (hs.setV (.head _) _ _).setV (.head _) _ _⟩
  | rnd => exact .inl ⟨_, rfl, (hs.setV (.head _) _ _).setDraws (.tail _ (.head _)) _⟩
  | ldDtVx => exact .inl ⟨_, rfl, hs.setDt (.head _) _⟩
  | ldStVx => exact .inl ⟨_, rfl, hs.setSt (.head _) _⟩
  | ldI | addI | ldF => exact .inl ⟨_, rfl, hs.setI (.head _) _⟩

end Instructions

/-- What an instruction answered: a state within its frame, or its own state with a fault latched. -/
theorem exec_cases {i : Instr} {s t : State} (h : exec i s = .next t) :
    UnchangedExcept i.writes s t ∨ ∃ f, t = s.setFault (some f) := by
  obtain ⟨u, hu, hframe⟩ | ⟨f, hf⟩ := exec_writes_or_raises s i
  · obtain rfl : u = t := by simpa [hu] using h
    exact .inl hframe
  · exact .inr ⟨f, by simpa [hf, raise_eq] using h.symm⟩

theorem Instr.stackLimit_notMem_writes (i : Instr) : Part.stackLimit ∉ i.writes := by
  cases i <;> simp [Instr.writes]

/-- 00EE and 2nnn alone write STACK (10_state.md R33). -/
theorem Instr.stack_mem_writes {i : Instr} (h : Part.stack ∈ i.writes) : i = .ret ∨ ∃ nnn, i = .call nnn := by
  cases i <;> simp [Instr.writes] at h ⊢

/-! ## What a step can do (40_execution_engine.md R91 to R97) -/

section Step

variable {s t : State}

theorem step_of_halted (h : halted s = true) : step s = .next (closeBootWindow s) := by
  simp [step, h]

theorem step_of_fetch_error {f : Fault} (hrun : halted s = false) (hf : fetch s = .error f) :
    step s = raise f (closeBootWindow s) := by
  have hf' : fetch (closeBootWindow s) = .error f := hf
  simp [step, hrun, hf']

theorem step_of_instr {w : Word} {i : Instr} (hrun : halted s = false) (hw : fetch s = .ok w)
    (hi : decodeWord w = .ok i) : step s = exec i (advance (closeBootWindow s)) := by
  have hw' : fetch (closeBootWindow s) = .ok w := hw
  simp [step, hrun, hw', hi]

theorem step_of_unrecognised {w : Word} {e : DecodeReject} (hrun : halted s = false) (hw : fetch s = .ok w)
    (he : decodeWord w = .error e) : step s = .next (advance (closeBootWindow s)) := by
  have hw' : fetch (closeBootWindow s) = .ok w := hw
  simp [step, hrun, hw', he]

/-- What a step answered, with the guard of each case: a halted core, a fetch that faults, a word that is no instruction, an
instruction. -/
theorem step_cases (h : step s = .next t) :
    (halted s = true ∧ t = closeBootWindow s) ∨
    (halted s = false ∧ ∃ f, fetch s = .error f ∧ t = (closeBootWindow s).setFault (some f)) ∨
    (halted s = false ∧ ∃ w e, fetch s = .ok w ∧ decodeWord w = .error e ∧ t = advance (closeBootWindow s)) ∨
    (halted s = false ∧ ∃ w i, fetch s = .ok w ∧ decodeWord w = .ok i ∧
      exec i (advance (closeBootWindow s)) = .next t) := by
  cases hrun : halted s with
  | true => simpa [step_of_halted hrun, eq_comm] using h
  | false =>
    cases hw : fetch s with
    | error f => simpa [step_of_fetch_error hrun hw, raise_eq, eq_comm] using h
    | ok w =>
      cases hi : decodeWord w with
      | error e => simpa [step_of_unrecognised hrun hw hi, hi, eq_comm] using h
      | ok i => simpa [step_of_instr hrun hw hi, hi] using h

end Step

/-! ## STACK under a step (00_scope.md R6, 41_control_flow.md R110, R112) -/

section StackLimit

variable {s t : State}

/-- A stack that is no longer, under the same limit, is within it. -/
theorem StackWithinLimit.of_length_le (hs : StackWithinLimit s) (hlimit : t.stackLimit = s.stackLimit)
    (hlen : t.stack.length ≤ s.stack.length) : StackWithinLimit t :=
  fun n hn => hlen.trans (hs n (hlimit ▸ hn))

theorem ret_keeps_stackWithinLimit (hs : StackWithinLimit s) (h : exec .ret s = .next t) : StackWithinLimit t := by
  change execRet s = .next t at h
  cases hstack : s.stack with
  | nil =>
    rw [execRet_of_nil hstack] at h
    cases h
    exact hs
  | cons top rest =>
    rw [execRet_of_cons hstack] at h
    cases h
    exact hs.of_length_le rfl (by simp [hstack])

/-- 2nnn pushes only below the limit; at it, it raises and pushes nothing (R112). -/
theorem call_keeps_stackWithinLimit {nnn : Addr12} (hs : StackWithinLimit s) (h : exec (.call nnn) s = .next t) :
    StackWithinLimit t := by
  change execCall nnn s = .next t at h
  by_cases hfull : s.stackLimit = some s.stack.length
  · rw [execCall_of_full nnn hfull] at h
    cases h
    exact hs
  · rw [execCall_of_not_full nnn hfull] at h
    cases h
    intro n (hn : s.stackLimit = some n)
    have hle : s.stack.length ≤ n := hs n hn
    have hne : s.stack.length ≠ n := fun e => hfull (e ▸ hn)
    exact Nat.lt_of_le_of_ne hle hne

theorem exec_keeps_stackWithinLimit {i : Instr} (hs : StackWithinLimit s) (h : exec i s = .next t) :
    StackWithinLimit t := by
  by_cases hi : Part.stack ∈ i.writes
  · obtain rfl | ⟨nnn, rfl⟩ := Instr.stack_mem_writes hi
    · exact ret_keeps_stackWithinLimit hs h
    · exact call_keeps_stackWithinLimit hs h
  · obtain hframe | ⟨f, rfl⟩ := exec_cases h
    · have hstack : t.stack = s.stack := hframe .stack hi
      exact hs.of_length_le (hframe .stackLimit i.stackLimit_notMem_writes) (le_of_eq (congrArg _ hstack))
    · exact hs

end StackLimit

/-- Settles O57: outside an instruction a step leaves STACK alone, and 2nnn, the one that lengthens it, pushes only below the
limit. -/
theorem stepKeepsStackWithinLimit : Obligations.StepKeepsStackWithinLimit := by
  intro s t hs h
  have hadvanced : StackWithinLimit (advance (closeBootWindow s)) := hs
  obtain ⟨_, rfl⟩ | ⟨_, f, _, rfl⟩ | ⟨_, w, e, _, _, rfl⟩ | ⟨_, w, i, _, _, hexec⟩ := step_cases h
  · exact hs
  · exact hs
  · exact hadvanced
  · exact exec_keeps_stackWithinLimit hadvanced hexec

end Sys2Proof
end

section
/-! The laws of the shared operations that the family of the state needs: PC in a step, reads around block writes, the contents of
a canonical form. -/

namespace Sys2Proof.Machine

/-! ## PC and keys -/

theorem pc_le_of_fetch_ok {s : State} {w : Word} (h : fetch s = .ok w) : s.pc.toNat ≤ 0xFFE := by
  by_contra hpc
  simp [fetch_error (Nat.lt_of_not_le hpc)] at h

/-- A skip on the advanced PC leaves PC0 + 4 or PC0 + 2 (41_control_flow.md R118). -/
theorem skipIf_advance_pc {s : State} (hpc : s.pc.toNat ≤ 0xFFE) (c : Bool) :
    (skipIf c (advance s)).pc.toNat = if c then s.pc.toNat + 4 else s.pc.toNat + 2 := by
  have hadvance := advance_pc hpc
  have htwo : (2 : Word).toNat = 2 := rfl
  rw [skipIf_pc]
  cases c
  · exact hadvance
  · simp only [if_true, BitVec.toNat_add, hadvance, htwo]
    omega

/-- The jump target of Bnnn does not wrap (R117). -/
theorem toNat_zextAddr_add_zextByte (nnn : Addr12) (b : Byte) :
    (zextAddr nnn + zextByte b).toNat = nnn.toNat + b.toNat := by
  have := nnn.isLt
  have := b.isLt
  rw [BitVec.toNat_add, toNat_zextAddr, toNat_zextByte]
  omega

/-- A key code above 0xF is never pressed (45_keys_timers.md R180). -/
theorem keyDown_eq (keys : Word) (k : Byte) : keyDown keys k = (decide (k.toNat < 16) && keys.getLsbD k.toNat) := by
  by_cases hk : k.toNat < 16
  · simp [keyDown, hk]
  · simp [keyDown, hk, BitVec.getLsbD_of_ge _ _ (Nat.not_lt.1 hk)]

/-! ## Block writes -/

/-- A block write leaves every byte outside the block. -/
theorem Memory.read_writeBytes_outside {m : Memory} {a c : Nat} {bs : List Byte} (h : c < a ∨ a + bs.length ≤ c) :
    (m.writeBytes a bs).read c = m.read c := by
  rw [Memory.read_writeBytes, if_neg]
  omega

/-- Two block writes, one wholly below the other, commute. -/
theorem Memory.read_writeBytes_comm {m : Memory} {a b : Nat} {as bs : List Byte} (h : a + as.length ≤ b) (c : Nat) :
    ((m.writeBytes b bs).writeBytes a as).read c = ((m.writeBytes a as).writeBytes b bs).read c := by
  simp only [Memory.read_writeBytes]
  by_cases ha : a ≤ c ∧ c < a + as.length
  · rw [if_pos ha, if_neg (by omega), if_pos ha]
  · rw [if_neg ha, if_neg ha]

/-! ## A canonical form is determined by its contents -/

theorem Memory.read_of_notMem {m : Memory} {a : Nat} (h : ∀ e ∈ m, e.1 ≠ a) : m.read a = Config.unlistedByte := by
  induction m with
  | nil => rfl
  | cons e m ih =>
    obtain ⟨he, hm⟩ := List.forall_mem_cons.1 h
    rw [Memory.read, if_neg he, ih hm]

/-- A canonical memory lists exactly the bytes that read as something other than an unlisted one. -/
theorem Memory.mem_iff_read {m : Memory} (h : m.wf) (c : Host.Cell) :
    c ∈ m ↔ c.2 ≠ Config.unlistedByte ∧ m.read c.1 = c.2 := by
  induction m with
  | nil => simp [Memory.read, eq_comm]
  | cons e m ih =>
    obtain ⟨hrising, hcells⟩ := h
    obtain ⟨hbelow, hrising⟩ := List.pairwise_cons.1 hrising
    obtain ⟨⟨-, hbyte⟩, hcells⟩ := List.forall_mem_cons.1 hcells
    rw [List.mem_cons, ih ⟨hrising, hcells⟩, Memory.read]
    by_cases haddr : e.1 = c.1
    · have hunlisted : Memory.read m c.1 = Config.unlistedByte :=
        Memory.read_of_notMem fun d hd => Nat.ne_of_gt (haddr ▸ hbelow d hd)
      rw [if_pos haddr, hunlisted]
      constructor
      · rintro (rfl | ⟨hne, heq⟩)
        · exact ⟨hbyte, rfl⟩
        · exact absurd heq.symm hne
      · rintro ⟨-, heq⟩
        exact .inl (Prod.ext haddr.symm heq.symm)
    · have hne : c ≠ e := fun hce => haddr (congrArg Prod.fst hce.symm)
      rw [if_neg haddr, or_iff_right hne]

theorem Memory.eq_of_read {m m' : Memory} (h : m.wf) (h' : m'.wf) (hread : ∀ a, m.read a = m'.read a) : m = m' := by
  have : Std.Antisymm (fun c d : Host.Cell => c.1 < d.1) := ⟨fun _ _ hcd hdc => absurd hcd (Nat.lt_asymm hdc)⟩
  have : Std.Irrefl (fun c d : Host.Cell => c.1 < d.1) := ⟨fun c => Nat.lt_irrefl c.1⟩
  refine h.1.eq_of_mem_iff h'.1 fun c => ?_
  rw [Memory.mem_iff_read h, Memory.mem_iff_read h', hread]

theorem Display.eq_of_lit {d d' : Display} (h : d.wf) (h' : d'.wf) (hlit : ∀ p, d.lit p = d'.lit p) : d = d' := by
  have : Std.Irrefl pixelBefore := ⟨fun p hp => by unfold pixelBefore at hp; omega⟩
  have : Std.Antisymm pixelBefore := ⟨fun p q hpq hqp => absurd (pixelBefore_trans hpq hqp) (Std.Irrefl.irrefl p)⟩
  refine h.1.eq_of_mem_iff h'.1 fun p => ?_
  rw [← Display.lit_iff_mem, ← Display.lit_iff_mem, hlit]

end Sys2Proof.Machine
end

section
/-! PC after every instruction (O11); PC and STACK in range under a step (O56). -/

namespace Sys2Proof

open Machine

/-! ## What an instruction leaves as it was -/

section ExecFrames

variable {i : Instr} {s t : State}

/-- Every instruction answers a next state (40_execution_engine.md R97). -/
theorem exec_answers_next (i : Instr) (s : State) : ∃ t, exec i s = .next t := by
  obtain ⟨t, ht, -⟩ | ⟨f, hf⟩ := exec_writes_or_raises s i
  · exact ⟨t, ht⟩
  · exact ⟨_, hf⟩

theorem UnchangedExcept.setFault {ps : List Part} (h : UnchangedExcept ps s t) (hq : .fault ∈ ps) (f : Option Fault) :
    UnchangedExcept ps s (t.setFault f) :=
  h.update hq fun p hp => by cases p <;> simp [Same] at hp ⊢

theorem UnchangedExcept.setHasRun {ps : List Part} (h : UnchangedExcept ps s t) (hq : .hasRun ∈ ps) (b : Bool) :
    UnchangedExcept ps s (t.setHasRun b) :=
  h.update hq fun p hp => by cases p <;> simp [Same] at hp ⊢

/-- An element that is neither the latch nor on the instruction's list is as before, whether the instruction raised or not. -/
theorem exec_keeps {p : Part} (hp : p ∉ i.writes) (hfault : p ≠ .fault) (h : exec i s = .next t) : Same p s t := by
  obtain hframe | ⟨f, rfl⟩ := exec_cases h
  · exact hframe p hp
  · exact UnchangedExcept.setFault (.refl [.fault] s) (.head _) _ p (by simpa using hfault)

theorem Instr.run_notMem_writes (i : Instr) : Part.run ∉ i.writes := by
  cases i <;> simp [Instr.writes]

theorem Instr.fault_notMem_writes (i : Instr) : Part.fault ∉ i.writes := by
  cases i <;> simp [Instr.writes]

theorem Instr.keys_notMem_writes (i : Instr) : Part.keys ∉ i.writes := by
  cases i <;> simp [Instr.writes]

end ExecFrames

/-! ## The step of a running core at an instruction and at an unrecognised word -/

section Running

variable {i : Instr} {s : State}

theorem Running.not_halted (h : Running s) : halted s = false := by
  obtain ⟨hfault, hrun⟩ := h
  simp [halted, hfault, hrun]

/-- Two bytes decode as the word they make (20_memory.md R55). -/
theorem decode_pair_eq_ok_iff {hi lo : Byte} : decode [hi, lo] = .ok (i, []) ↔ decodeWord (wordOfBytes hi lo) = .ok i := by
  cases h : decodeWord (wordOfBytes hi lo) <;> simp [decode, h]

theorem decode_pair_eq_error_iff {hi lo : Byte} {e : DecodeReject} :
    decode [hi, lo] = .error e ↔ decodeWord (wordOfBytes hi lo) = .error e := by
  cases h : decodeWord (wordOfBytes hi lo) <;> simp [decode, h]

theorem step_of_atInstr (hrun : Running s) (h : AtInstr i s) : step s = exec i (advance (closeBootWindow s)) := by
  obtain ⟨hpc, hdecode⟩ := h
  exact step_of_instr hrun.not_halted (fetch_ok hpc) (decode_pair_eq_ok_iff.1 hdecode)

theorem step_of_atUnrecognised (hrun : Running s) (h : AtUnrecognised s) :
    step s = .next (advance (closeBootWindow s)) := by
  obtain ⟨hpc, w, hdecode⟩ := h
  exact step_of_unrecognised hrun.not_halted (fetch_ok hpc) (decode_pair_eq_error_iff.1 hdecode)

/-- A core that is not halted runs. -/
theorem running_of_not_halted (h : halted s = false) : Running s := by
  have hnot : ¬ (s.fault ≠ none ∨ s.run = .paused) := by simp [← halted_iff, h]
  rw [not_or, not_not] at hnot
  obtain ⟨hfault, hrun⟩ := hnot
  refine ⟨hfault, ?_⟩
  cases hr : s.run with
  | playing => rfl
  | paused => exact absurd hr hrun

end Running

/-! ## PC after an instruction (10_state.md R23) -/

section PcAfter

variable {i : Instr} {s t : State}

/-- An instruction that does not write PC leaves it where the advance put it. -/
theorem Instr.pcAfter_of_pc_notMem_writes (h : Part.pc ∉ i.writes) : i.pcAfter s = s.pc.toNat + 2 := by
  cases i <;> simp [Instr.writes] at h <;> rfl

theorem ret_pc (h : exec .ret (advance s) = .next t) (hf : t.fault = none) : t.pc.toNat = Instr.ret.pcAfter s := by
  change execRet (advance s) = .next t at h
  cases hstack : (advance s).stack with
  | nil =>
    rw [execRet_of_nil hstack] at h
    cases h
    cases hf
  | cons top rest =>
    have hstack' : s.stack = top :: rest := hstack
    rw [execRet_of_cons hstack] at h
    cases h
    simp [Instr.pcAfter, hstack']

theorem call_pc {nnn : Addr12} (h : exec (.call nnn) (advance s) = .next t) (hf : t.fault = none) :
    t.pc.toNat = nnn.toNat := by
  change execCall nnn (advance s) = .next t at h
  by_cases hfull : (advance s).stackLimit = some (advance s).stack.length
  · rw [execCall_of_full nnn hfull] at h
    cases h
    cases hf
  · rw [execCall_of_not_full nnn hfull] at h
    cases h
    exact toNat_zextAddr nnn

/-- With a key down Fx0A writes its register and, for a choice among several, the draw counter (45_keys_timers.md R182). -/
theorem execLdVxK_of_keys_ne_zero (x : Nibble) (h : s.keys ≠ 0) :
    ∃ k n, execLdVxK x s = .next ((s.setV x k).setDraws n) := by
  match hpressed : pressedKeys s.keys with
  | [] => exact absurd ((pressedKeys_eq_nil _).1 hpressed) h
  | [k] => exact ⟨k, s.draws, execLdVxK_of_one_key x hpressed⟩
  | k :: l :: ks => exact ⟨_, _, execLdVxK_of_keys x hpressed⟩

/-- Fx0A moves PC back to PC0 exactly when no key is down (R182). -/
theorem ldVxK_pc {x : Nibble} (hpc : s.pc.toNat ≤ 0xFFE) (h : exec (.ldVxK x) (advance s) = .next t) :
    t.pc.toNat = (Instr.ldVxK x).pcAfter s := by
  change execLdVxK x (advance s) = .next t at h
  change t.pc.toNat = if s.keys = 0 then s.pc.toNat else s.pc.toNat + 2
  by_cases hkeys : s.keys = 0
  · rw [execLdVxK_of_no_key (s := advance s) x ((pressedKeys_eq_nil _).2 hkeys)] at h
    cases h
    rw [if_pos hkeys]
    exact congrArg BitVec.toNat (pc0_advance s)
  · obtain ⟨k, n, hk⟩ := execLdVxK_of_keys_ne_zero (s := advance s) x hkeys
    rw [hk] at h
    cases h
    rw [if_neg hkeys]
    exact advance_pc hpc

/-- The PC of R23 is the one an instruction leaves that raises no fault. -/
theorem exec_pc (hpc : s.pc.toNat ≤ 0xFFE) (h : exec i (advance s) = .next t) (hf : t.fault = none) :
    t.pc.toNat = i.pcAfter s := by
  by_cases hi : Part.pc ∈ i.writes
  · cases i with
    | ret => exact ret_pc h hf
    | call nnn => exact call_pc h hf
    | ldVxK x => exact ldVxK_pc hpc h
    | jp nnn =>
      cases h
      exact toNat_zextAddr nnn
    | jpV0 nnn =>
      cases h
      exact toNat_zextAddr_add_zextByte nnn _
    | seImm | sneImm | seReg | sneReg =>
      cases h
      exact skipIf_advance_pc hpc _
    | skp x =>
      cases h
      rw [skipIf_advance_pc hpc, keyDown_eq]
      rfl
    | sknp x =>
      cases h
      rw [skipIf_advance_pc hpc, keyDown_eq]
      rfl
    | _ => simp [Instr.writes] at hi
  · have hsame : t.pc = (advance s).pc := exec_keeps hi (by decide) h
    rw [hsame, advance_pc hpc, Instr.pcAfter_of_pc_notMem_writes hi]

end PcAfter

/-- Settles O11: the PC R23 lists is the one `exec` leaves on the advanced state, and an unrecognised word leaves the advance. -/
theorem pcAfterEveryInstruction : Obligations.PcAfterEveryInstruction := by
  intro s hrun
  refine ⟨fun i hi => ?_, fun hu => ?_⟩
  · obtain ⟨t, ht⟩ := exec_answers_next i (advance (closeBootWindow s))
    refine ⟨t, (step_of_atInstr hrun hi).trans ht, fun hf => ?_⟩
    exact exec_pc (s := closeBootWindow s) hi.1 ht hf
  · exact ⟨_, step_of_atUnrecognised hrun hu, advance_pc hu.1⟩

/-! ## PC and STACK in range under a step -/

section ControlInRange

variable {i : Instr} {s t : State}

/-- 00EE goes to a return address, which a call pushed (41_control_flow.md R110). -/
theorem ret_pcAfter_le (hs : ControlInRange s) : Instr.ret.pcAfter s ≤ 0x1000 := by
  cases h : s.stack with
  | nil => simp [Instr.pcAfter, h]
  | cons top rest =>
    have htop := (hs.2 top (by simp [h])).2
    simpa [Instr.pcAfter, h] using htop

/-- The highest PC of R23 is Bnnn's 0xFFF + 0xFF (41_control_flow.md R117). -/
theorem pcAfter_le (hs : ControlInRange s) (hpc : s.pc.toNat ≤ 0xFFE) : i.pcAfter s ≤ 0x10FE := by
  by_cases hi : Part.pc ∈ i.writes
  · cases i with
    | ret => exact (ret_pcAfter_le hs).trans (by decide)
    | jp nnn | call nnn =>
      have := nnn.isLt
      simp only [Instr.pcAfter]
      omega
    | jpV0 nnn =>
      have := nnn.isLt
      have := (s.getV 0).isLt
      simp only [Instr.pcAfter]
      omega
    | seImm | sneImm | seReg | sneReg | skp | sknp | ldVxK =>
      simp only [Instr.pcAfter]
      split <;> omega
    | _ => simp [Instr.writes] at hi
  · rw [Instr.pcAfter_of_pc_notMem_writes hi]
    omega

theorem ret_keeps_stack_entries {P : Word → Prop} (hs : ∀ e ∈ s.stack, P e) (h : exec .ret s = .next t) :
    ∀ e ∈ t.stack, P e := by
  change execRet s = .next t at h
  cases hstack : s.stack with
  | nil =>
    rw [execRet_of_nil hstack] at h
    cases h
    exact hs
  | cons top rest =>
    rw [execRet_of_cons hstack] at h
    cases h
    intro e he
    exact hs e (hstack ▸ List.mem_cons_of_mem top he)

theorem call_keeps_stack_entries {P : Word → Prop} {nnn : Addr12} (hs : ∀ e ∈ s.stack, P e) (hpushed : P s.pc)
    (h : exec (.call nnn) s = .next t) : ∀ e ∈ t.stack, P e := by
  change execCall nnn s = .next t at h
  by_cases hfull : s.stackLimit = some s.stack.length
  · rw [execCall_of_full nnn hfull] at h
    cases h
    exact hs
  · rw [execCall_of_not_full nnn hfull] at h
    cases h
    exact List.forall_mem_cons.2 ⟨hpushed, hs⟩

/-- The only entry an instruction puts on STACK is the PC that 2nnn pushes (41_control_flow.md R110, R112). -/
theorem exec_keeps_stack_entries {P : Word → Prop} (hs : ∀ e ∈ s.stack, P e) (hpushed : P s.pc)
    (h : exec i s = .next t) : ∀ e ∈ t.stack, P e := by
  by_cases hi : Part.stack ∈ i.writes
  · obtain rfl | ⟨nnn, rfl⟩ := Instr.stack_mem_writes hi
    · exact ret_keeps_stack_entries hs h
    · exact call_keeps_stack_entries hs hpushed h
  · have hsame : t.stack = s.stack := exec_keeps hi (by decide) h
    rwa [hsame]

theorem exec_keeps_controlInRange (hs : ControlInRange s) (hpc : s.pc.toNat ≤ 0xFFE) (hfault : s.fault = none)
    (h : exec i (advance s) = .next t) : ControlInRange t := by
  have hadvance := advance_pc hpc
  have hreturn : 2 ≤ (advance s).pc.toNat ∧ (advance s).pc.toNat ≤ 0x1000 := by omega
  refine ⟨?_, exec_keeps_stack_entries (s := advance s) hs.2 hreturn h⟩
  obtain hframe | ⟨f, rfl⟩ := exec_cases h
  · have hnone : t.fault = s.fault := hframe .fault i.fault_notMem_writes
    rw [exec_pc hpc h (hnone.trans hfault)]
    exact pcAfter_le hs hpc
  · rw [State.setFault_pc]
    omega

end ControlInRange

/-- Settles O56: a step that executes has fetched at PC at most 0xFFE, so R23 bounds the PC it leaves and 2nnn pushes at most
0x1000; every other step leaves PC alone, or advances it after such a fetch, and leaves STACK alone. -/
theorem stepKeepsPcAndStackInRange : Obligations.StepKeepsPcAndStackInRange := by
  intro s t hs h
  have hclosed : ControlInRange (closeBootWindow s) := hs
  obtain ⟨_, rfl⟩ | ⟨_, f, _, rfl⟩ | ⟨_, w, e, hw, _, rfl⟩ | ⟨hrun, w, i, hw, _, hexec⟩ := step_cases h
  · exact hs
  · exact hs
  · have hpc := pc_le_of_fetch_ok hw
    have hadvance : (advance (closeBootWindow s)).pc.toNat = s.pc.toNat + 2 := advance_pc hpc
    exact ⟨by omega, hs.2⟩
  · exact exec_keeps_controlInRange hclosed (pc_le_of_fetch_ok hw) (running_of_not_halted hrun).1 hexec

end Sys2Proof
end

section
/-! What a step and an instruction leave as it was (O41, O37). -/

namespace Sys2Proof

open Machine

/-! ## RUN and the inputs under a step -/

/-- An element that no instruction writes, and no part of a step around the instruction, is as before after every step. -/
theorem step_keeps {p : Part} {s t : State} (hp : p ∉ [.pc, .fault, .hasRun]) (hwrites : ∀ i : Instr, p ∉ i.writes)
    (h : step s = .next t) : Same p s t := by
  have hclosed : UnchangedExcept [.pc, .fault, .hasRun] s (closeBootWindow s) :=
    (UnchangedExcept.refl _ s).setHasRun (.tail _ (.tail _ (.head _))) true
  have hadvanced : UnchangedExcept [.pc, .fault, .hasRun] s (advance (closeBootWindow s)) := hclosed.setPc (.head _) _
  obtain ⟨_, rfl⟩ | ⟨_, f, _, rfl⟩ | ⟨_, w, e, _, _, rfl⟩ | ⟨_, w, i, _, _, hexec⟩ := step_cases h
  · exact hclosed p hp
  · exact hclosed.setFault (.tail _ (.head _)) _ p hp
  · exact hadvanced p hp
  · have hfault : p ≠ .fault := by
      rintro rfl
      simp at hp
    exact (hadvanced p hp).trans (exec_keeps (hwrites i) hfault hexec)

/-- Settles O41: RUN, KEYS and STACK_LIMIT are on no instruction's list. -/
theorem stepNeverWritesRunOrInputs : Obligations.StepNeverWritesRunOrInputs := by
  intro s t h
  exact ⟨step_keeps (p := .run) (by decide) Instr.run_notMem_writes h,
    step_keeps (p := .keys) (by decide) Instr.keys_notMem_writes h,
    step_keeps (p := .stackLimit) (by decide) Instr.stackLimit_notMem_writes h⟩

/-! ## Registers and memory under an instruction -/

section Destinations

variable {i : Instr} {s t : State} {xs : List Nibble}

theorem RegsUnchangedExcept.refl (xs : List Nibble) (s : State) : RegsUnchangedExcept xs s s := fun _ _ => rfl

/-- A register frame grows by a write to a register that it names. -/
theorem RegsUnchangedExcept.setV (h : RegsUnchangedExcept xs s t) {x : Nibble} (hx : x ∈ xs) (b : Byte) :
    RegsUnchangedExcept xs s (t.setV x b) := by
  intro j hj
  have hne : j ≠ x := fun e => hj (e ▸ hx)
  rw [State.getV_setV, if_neg hne]
  exact h j hj

theorem drw_keeps_registers {x y n : Nibble} (h : exec (.drw x y n) s = .next t) : RegsUnchangedExcept [15] s t := by
  change execDrw x y n s = .next t at h
  cases hf : accessFault n.toNat s with
  | some f =>
    rw [execDrw_of_fault x y hf] at h
    cases h
    exact .refl _ s
  | none =>
    rw [execDrw_of_no_fault x y hf] at h
    cases h
    exact RegsUnchangedExcept.setV (t := s.setDisp _) (.refl _ s) (.head _) _

/-- The destinations of Fx65 are V0 to Vx (43_index_memory.md R156). -/
theorem mem_destinations_ldVxMem (x j : Nibble) : j ∈ (Instr.ldVxMem x).destinations ↔ j.toNat ≤ x.toNat := by
  have := j.isLt
  simp only [Instr.destinations, List.mem_map, List.mem_range]
  constructor
  · rintro ⟨k, hk, rfl⟩
    have : (BitVec.ofNat 4 k).toNat ≤ k := by simpa using Nat.mod_le k 16
    omega
  · intro hj
    exact ⟨j.toNat, by omega, by simp⟩

theorem ldVxMem_keeps_registers {x : Nibble} (h : exec (.ldVxMem x) s = .next t) :
    RegsUnchangedExcept (Instr.ldVxMem x).destinations s t := by
  change execLdVxMem x s = .next t at h
  cases hf : accessFault (x.toNat + 1) s with
  | some f =>
    rw [execLdVxMem_of_fault hf] at h
    cases h
    exact .refl _ s
  | none =>
    rw [execLdVxMem_of_no_fault hf] at h
    cases h
    intro j hj
    rw [mem_destinations_ldVxMem] at hj
    change (fillRegs 0 (s.mem.readBytes s.i.toNat (x.toNat + 1)) s.v)[j.toNat] = s.v[j.toNat]
    rw [getElem_fillRegs, if_neg]
    rw [Memory.length_readBytes]
    omega

theorem ldVxK_keeps_registers {x : Nibble} (h : exec (.ldVxK x) s = .next t) : RegsUnchangedExcept [x] s t := by
  change execLdVxK x s = .next t at h
  by_cases hkeys : s.keys = 0
  · rw [execLdVxK_of_no_key x ((pressedKeys_eq_nil _).2 hkeys)] at h
    cases h
    exact .refl _ s
  · obtain ⟨k, n, hk⟩ := execLdVxK_of_keys_ne_zero x hkeys
    rw [hk] at h
    cases h
    exact (RegsUnchangedExcept.refl _ s).setV (.head _) k

/-- The general registers outside an instruction's destinations are as before (10_state.md R21, R25). -/
theorem exec_keeps_registers (h : exec i s = .next t) : RegsUnchangedExcept i.destinations s t := by
  by_cases hi : Part.v ∈ i.writes
  · have hs := RegsUnchangedExcept.refl i.destinations s
    cases i with
    | drw x y n => exact drw_keeps_registers h
    | ldVxMem x => exact ldVxMem_keeps_registers h
    | ldVxK x => exact ldVxK_keeps_registers h
    | ldImm | addImm | ldReg | ldVxDt | rnd =>
      cases h
      exact hs.setV (.head _) _
    | orReg | andReg | xorReg | addReg =>
      cases h
      exact (hs.setV (.head _) _).setV (.tail _ (.head _)) _
    | sub | shr | subn | shl =>
      cases h
      exact (hs.setV (.tail _ (.head _)) _).setV (.head _) _
    | _ => simp [Instr.writes] at hi
  · intro j _
    exact exec_keeps (p := .v) hi (by decide) h j

theorem ldB_keeps_memory {x : Nibble} (h : exec (.ldB x) s = .next t) {a : Nat}
    (ha : a < s.i.toNat ∨ s.i.toNat + 3 ≤ a) : t.mem.read a = s.mem.read a := by
  change execLdB x s = .next t at h
  cases hf : accessFault 3 s with
  | some f =>
    rw [execLdB_of_fault x hf] at h
    cases h
    rfl
  | none =>
    rw [execLdB_of_no_fault x hf] at h
    cases h
    exact Memory.read_writeBytes_outside ha

theorem ldMemVx_keeps_memory {x : Nibble} (h : exec (.ldMemVx x) s = .next t) {a : Nat}
    (ha : a < s.i.toNat ∨ s.i.toNat + (x.toNat + 1) ≤ a) : t.mem.read a = s.mem.read a := by
  change execLdMemVx x s = .next t at h
  cases hf : accessFault (x.toNat + 1) s with
  | some f =>
    rw [execLdMemVx_of_fault hf] at h
    cases h
    rfl
  | none =>
    rw [execLdMemVx_of_no_fault hf] at h
    cases h
    exact Memory.read_writeBytes_outside (by rwa [length_regsUpTo])

/-- The bytes outside the ones an instruction accesses at I are as before (20_memory.md R53, R57). -/
theorem exec_keeps_memory (h : exec i s = .next t) {a : Nat} (ha : a < s.i.toNat ∨ s.i.toNat + i.accessCount ≤ a) :
    t.mem.read a = s.mem.read a := by
  by_cases hi : Part.mem ∈ i.writes
  · cases i with
    | ldB x => exact ldB_keeps_memory h ha
    | ldMemVx x => exact ldMemVx_keeps_memory h ha
    | _ => simp [Instr.writes] at hi
  · exact exec_keeps (p := .mem) hi (by decide) h a

end Destinations

/-- Settles O37: what `exec_cases` says of an answered state, with the destinations and the accessed bytes told apart within the
registers and within memory. -/
theorem everyInstructionKeepsTheRest : Obligations.EveryInstructionKeepsTheRest := by
  intro i s t h
  refine ⟨fun hsame => ⟨fun p hp => ?_, exec_keeps_registers h, fun a ha => exec_keeps_memory h ha⟩, fun hchanged => ?_⟩
  · by_cases hpf : p = .fault
    · exact hpf ▸ hsame
    · exact exec_keeps hp hpf h
  · obtain hframe | ⟨f, rfl⟩ := exec_cases h
    · exact absurd (hframe .fault i.fault_notMem_writes) hchanged
    · exact UnchangedExcept.setFault (.refl _ s) (.head _) _

end Sys2Proof
end

section
/-! The reset state (O48, O53), the boot sequence (O52), and the uniqueness of the canonical forms (O59). -/

namespace Sys2Proof

open Machine

/-! ## The reset state (10_state.md R40, 70_reset_and_hazards.md R230) -/

/-- Every element of R40 but MEM holds its reset value. -/
structure ElementsAtReset (t : State) : Prop where
  registers : ∀ j, t.getV j = 0
  index : t.i = 0
  counter : t.pc = 0x200
  stack : t.stack = []
  delay : t.dt = 0
  sound : t.st = 0
  display : t.disp = []
  run : t.run = .playing
  fault : t.fault = none

theorem reset_getV (j : Nibble) : State.reset.getV j = 0 := by
  simp [State.getV, State.reset]

theorem reset_elements : ElementsAtReset State.reset := ⟨reset_getV, rfl, rfl, rfl, rfl, rfl, rfl, rfl, rfl⟩

/-- `initialize` gives the elements of `State.reset` from every state, and loads write memory alone. -/
theorem initialise_setMem_elements (s : State) (m : Memory) : ElementsAtReset ((initialise s).setMem m) :=
  ⟨reset_getV, rfl, rfl, rfl, rfl, rfl, rfl, rfl, rfl⟩

/-- Settles O48: `initialise` takes only KEYS, the draw counter and STACK_LIMIT from the state before, the rest from
`State.reset`. -/
theorem initializeGivesTheResetState : Obligations.InitializeGivesTheResetState := by
  intro s
  refine ⟨rfl, fun t ht => ?_⟩
  obtain ⟨hmem, helements⟩ : t.mem = [] ∧ ElementsAtReset t := by
    obtain rfl | rfl := ht
    · exact ⟨rfl, initialise_setMem_elements s []⟩
    · exact ⟨rfl, reset_elements⟩
  obtain ⟨hv, hi, hpc, hstack, hdt, hst, hdisp, hrun, hfault⟩ := helements
  exact ⟨fun a => by rw [hmem, Memory.read_nil], hv, hi, hpc, hstack, hdt, hst, hdisp, hrun, hfault⟩

/-- Settles O53: memory, DISP and STACK are empty, PC is 0x200, and no fault is latched. -/
theorem resetMeetsEveryInvariant : Obligations.ResetMeetsEveryInvariant where
  memory := State.reset_mem_wf
  display := ⟨List.Pairwise.nil, fun _ h => absurd h List.not_mem_nil⟩
  control := ⟨by decide, fun _ h => absurd h List.not_mem_nil⟩
  depth := fun _ _ => Nat.zero_le _
  ran := fun h => absurd rfl h

/-! ## The boot sequence (10_state.md R41) -/

section Boot

variable (font : Vector Byte 80) (bytes : List Byte) (s : State)

/-- What R41 lists at each address: the font, 0, the program, 0. -/
def bootByte (a : Nat) : Byte :=
  if a < 80 then font.toList.getD a 0 else if 0x200 ≤ a then bytes.getD (a - 0x200) 0 else 0

theorem bootByte_font {k : Nat} (h : k < 80) : bootByte font bytes k = font[k] := by
  simp [bootByte, h]

theorem bootByte_gap {a : Nat} (h : 80 ≤ a) (h' : a < 0x200) : bootByte font bytes a = 0 := by
  rw [bootByte, if_neg (by omega), if_neg (by omega)]

theorem bootByte_program {k : Nat} (h : k < bytes.length) : bootByte font bytes (0x200 + k) = bytes[k] := by
  rw [bootByte, if_neg (by omega), if_pos (by omega), Nat.add_sub_cancel_left]
  simp [h]

theorem bootByte_rest {a : Nat} (h : 0x200 + bytes.length ≤ a) : bootByte font bytes a = 0 := by
  rw [bootByte, if_neg (by omega), if_pos (by omega)]
  exact List.getD_eq_default _ _ (by omega)

theorem read_font_then_program (a : Nat) :
    ((Memory.writeBytes [] 0 font.toList).writeBytes 0x200 bytes).read a = bootByte font bytes a := by
  by_cases hprogram : 0x200 ≤ a ∧ a < 0x200 + bytes.length
  · rw [Memory.read_writeBytes, if_pos hprogram, bootByte, if_neg (by omega), if_pos hprogram.1]
  · rw [Memory.read_writeBytes_outside (by omega), Memory.read_writeBytes, Vector.length_toList]
    by_cases hfont : a < 80
    · rw [if_pos (by omega), bootByte, if_pos hfont, Nat.sub_zero]
    · rw [if_neg (by omega), Memory.read_nil]
      by_cases hgap : a < 0x200
      · rw [bootByte_gap font bytes (by omega) hgap]
      · rw [bootByte_rest font bytes (by omega)]

/-- The font and the program do not overlap, so the order of the two loads does not matter. -/
theorem read_program_then_font (a : Nat) :
    ((Memory.writeBytes [] 0x200 bytes).writeBytes 0 font.toList).read a = bootByte font bytes a := by
  rw [← read_font_then_program]
  exact Memory.read_writeBytes_comm (by rw [Vector.length_toList]; omega) a

theorem performAll_cons {op : Operation} {ops : List Operation} {s t : State} (h : perform op s = .next t) :
    performAll (op :: ops) s = performAll ops t := by
  rw [performAll, h]

/-- In the boot window a load writes its bytes to memory and keeps the window open. -/
theorem perform_loadFont_after_initialise (m : Memory) :
    perform (.loadFont font) ((initialise s).setMem m) = .next ((initialise s).setMem (m.writeBytes 0 font.toList)) :=
  loadFont_eq font (s := (initialise s).setMem m) rfl rfl

theorem perform_loadProgram_after_initialise (h : bytes.length ≤ 3584) (m : Memory) :
    perform (.loadProgram bytes) ((initialise s).setMem m) = .next ((initialise s).setMem (m.writeBytes 0x200 bytes)) :=
  loadProgram_eq h (s := (initialise s).setMem m) rfl rfl

theorem performAll_font_then_program (h : bytes.length ≤ 3584) :
    performAll [.initialise, .loadFont font, .loadProgram bytes] s =
      .next ((initialise s).setMem ((Memory.writeBytes [] 0 font.toList).writeBytes 0x200 bytes)) := by
  rw [performAll_cons (t := (initialise s).setMem []) rfl,
    performAll_cons (perform_loadFont_after_initialise font s _),
    performAll_cons (perform_loadProgram_after_initialise bytes s h _)]
  rfl

theorem performAll_program_then_font (h : bytes.length ≤ 3584) :
    performAll [.initialise, .loadProgram bytes, .loadFont font] s =
      .next ((initialise s).setMem ((Memory.writeBytes [] 0x200 bytes).writeBytes 0 font.toList)) := by
  rw [performAll_cons (t := (initialise s).setMem []) rfl,
    performAll_cons (perform_loadProgram_after_initialise bytes s h _),
    performAll_cons (perform_loadFont_after_initialise font s _)]
  rfl

end Boot

/-- Settles O52: either order of the loads gives `bootByte` at every address, and loads write memory alone. -/
theorem bootSequenceLaysOutMemory : Obligations.BootSequenceLaysOutMemory := by
  intro font bytes s hlen ops hops
  obtain ⟨m, hperform, hread⟩ :
      ∃ m : Memory, performAll ops s = .next ((initialise s).setMem m) ∧ ∀ a, Memory.read m a = bootByte font bytes a := by
    obtain rfl | rfl := hops
    · exact ⟨_, performAll_font_then_program font bytes s hlen, read_font_then_program font bytes⟩
    · exact ⟨_, performAll_program_then_font font bytes s hlen, read_program_then_font font bytes⟩
  obtain ⟨hv, hi, hpc, hstack, hdt, hst, hdisp, hrun, hfault⟩ := initialise_setMem_elements s m
  exact ⟨_, hperform, fun k h => (hread k).trans (bootByte_font font bytes h),
    fun a h h' => (hread a).trans (bootByte_gap font bytes h h'),
    fun k h => (hread _).trans (bootByte_program font bytes h),
    fun a h => (hread a).trans (bootByte_rest font bytes h),
    hv, hi, hpc, hstack, hdt, hst, hdisp, hrun, hfault⟩

/-! ## Uniqueness of the canonical forms -/

/-- Settles O59: a canonical memory lists exactly its bytes that read as other than 0, a canonical DISP exactly its lit cells, and
a strictly rising list is determined by its members. -/
theorem canonicalFormsAreUnique : Obligations.CanonicalFormsAreUnique :=
  ⟨fun _ _ => Memory.eq_of_read, fun _ _ => Display.eq_of_lit⟩

end Sys2Proof
end

section
/-! The fetch (O10); memory in its canonical form under a step (O54). -/

namespace Sys2Proof

open Machine

/-! ## The fetch (20_memory.md R54, 40_execution_engine.md R93) -/

/-- A running core whose PC leaves no room for two bytes latches the fault of the fetch. -/
theorem Running.step_of_pc_above {s : State} (hrun : Running s) (hpc : 0xFFE < s.pc.toNat) :
    step s = .next ((closeBootWindow s).setFault (some (.fetchOutOfBounds s.pc))) := by
  rw [step_of_fetch_error hrun.not_halted (fetch_error hpc), raise_eq]

/-- Settles O10: the two guards of `fetch`, the bytes combined high byte first, and a step that writes the latch and the mark
alone. -/
theorem fetchReadsBigEndianOrFaults : Obligations.FetchReadsBigEndianOrFaults := by
  intro s
  refine ⟨fun hpc => ⟨_, fetch_ok hpc, toNat_wordOfBytes _ _⟩, fun hrun hpc => ?_⟩
  have hclosed : UnchangedExcept [.fault, .hasRun] s (closeBootWindow s) :=
    (UnchangedExcept.refl _ s).setHasRun (.tail _ (.head _)) true
  exact ⟨_, hrun.step_of_pc_above hpc, rfl, hclosed.setFault (.head _) _⟩

/-! ## Memory as a list under an instruction

`Same .mem` compares memories through their reads, which do not fix the list; the canonical form is a property of the list. -/

section MemoryList

variable {i : Instr} {s t : State}

theorem skipIf_mem (c : Bool) (s : State) : (skipIf c s).mem = s.mem := by
  rw [skipIf_eq, State.setPc_mem]

theorem ret_mem (h : exec .ret s = .next t) : t.mem = s.mem := by
  change execRet s = .next t at h
  cases hstack : s.stack with
  | nil =>
    rw [execRet_of_nil hstack] at h
    cases h
    rfl
  | cons top rest =>
    rw [execRet_of_cons hstack] at h
    cases h
    rfl

theorem call_mem {nnn : Addr12} (h : exec (.call nnn) s = .next t) : t.mem = s.mem := by
  change execCall nnn s = .next t at h
  by_cases hfull : s.stackLimit = some s.stack.length
  · rw [execCall_of_full nnn hfull] at h
    cases h
    rfl
  · rw [execCall_of_not_full nnn hfull] at h
    cases h
    rfl

theorem drw_mem {x y n : Nibble} (h : exec (.drw x y n) s = .next t) : t.mem = s.mem := by
  change execDrw x y n s = .next t at h
  cases hf : accessFault n.toNat s with
  | some f =>
    rw [execDrw_of_fault x y hf] at h
    cases h
    rfl
  | none =>
    rw [execDrw_of_no_fault x y hf] at h
    cases h
    rfl

theorem ldVxMem_mem {x : Nibble} (h : exec (.ldVxMem x) s = .next t) : t.mem = s.mem := by
  change execLdVxMem x s = .next t at h
  cases hf : accessFault (x.toNat + 1) s with
  | some f =>
    rw [execLdVxMem_of_fault hf] at h
    cases h
    rfl
  | none =>
    rw [execLdVxMem_of_no_fault hf] at h
    cases h
    rfl

theorem ldVxK_mem {x : Nibble} (h : exec (.ldVxK x) s = .next t) : t.mem = s.mem := by
  change execLdVxK x s = .next t at h
  by_cases hkeys : s.keys = 0
  · rw [execLdVxK_of_no_key x ((pressedKeys_eq_nil _).2 hkeys)] at h
    cases h
    rfl
  · obtain ⟨k, n, hk⟩ := execLdVxK_of_keys_ne_zero x hkeys
    rw [hk] at h
    cases h
    rfl

/-- An instruction that does not write memory leaves the list itself (20_memory.md R57). -/
theorem exec_mem_of_notMem_writes (hi : Part.mem ∉ i.writes) (h : exec i s = .next t) : t.mem = s.mem := by
  cases i with
  | ldB | ldMemVx => simp [Instr.writes] at hi
  | ret => exact ret_mem h
  | call nnn => exact call_mem h
  | drw x y n => exact drw_mem h
  | ldVxMem x => exact ldVxMem_mem h
  | ldVxK x => exact ldVxK_mem h
  | seImm | sneImm | seReg | sneReg | skp | sknp =>
    cases h
    exact skipIf_mem _ _
  | _ =>
    cases h
    rfl

end MemoryList

/-! ## The canonical form under a step -/

section MemoryCanonical

variable {i : Instr} {s t : State}

/-- An access that raises no fault lies inside memory (43_index_memory.md R150). -/
theorem access_le_memSize {k : Nat} (hk : 1 ≤ k) (h : accessFault k s = none) : s.i.toNat + k ≤ Config.memSize := by
  change s.i.toNat + k ≤ 4096
  by_contra hout
  rw [accessFault_eq, if_pos (by omega)] at h
  cases h

/-- A block written at I where the access raises no fault keeps memory canonical. -/
theorem MemoryCanonical.writeBytes (hs : MemoryCanonical s) {bs : List Byte} (hne : 1 ≤ bs.length)
    (h : accessFault bs.length s = none) : (s.mem.writeBytes s.i.toNat bs).wf :=
  Memory.wf_writeBytes bs hs (access_le_memSize hne h)

theorem ldB_keeps_memoryCanonical {x : Nibble} (hs : MemoryCanonical s) (h : exec (.ldB x) s = .next t) :
    MemoryCanonical t := by
  change execLdB x s = .next t at h
  cases hf : accessFault 3 s with
  | some f =>
    rw [execLdB_of_fault x hf] at h
    cases h
    exact hs
  | none =>
    rw [execLdB_of_no_fault x hf] at h
    cases h
    have hlen : (bcdDigits (s.getV x)).length = 3 := rfl
    exact MemoryCanonical.writeBytes hs (by omega) (by rwa [hlen])

theorem ldMemVx_keeps_memoryCanonical {x : Nibble} (hs : MemoryCanonical s) (h : exec (.ldMemVx x) s = .next t) :
    MemoryCanonical t := by
  change execLdMemVx x s = .next t at h
  cases hf : accessFault (x.toNat + 1) s with
  | some f =>
    rw [execLdMemVx_of_fault hf] at h
    cases h
    exact hs
  | none =>
    rw [execLdMemVx_of_no_fault hf] at h
    cases h
    have hlen := length_regsUpTo x s
    exact MemoryCanonical.writeBytes hs (by omega) (by rwa [hlen])

theorem exec_keeps_memoryCanonical (hs : MemoryCanonical s) (h : exec i s = .next t) : MemoryCanonical t := by
  by_cases hi : Part.mem ∈ i.writes
  · cases i with
    | ldB x => exact ldB_keeps_memoryCanonical hs h
    | ldMemVx x => exact ldMemVx_keeps_memoryCanonical hs h
    | _ => simp [Instr.writes] at hi
  · rw [MemoryCanonical, exec_mem_of_notMem_writes hi h]
    exact hs

end MemoryCanonical

/-- Settles O54: outside an instruction a step leaves memory alone, and Fx33 and Fx55, the two that write it, write inside the
array or raise. -/
theorem stepKeepsMemoryCanonical : Obligations.StepKeepsMemoryCanonical := by
  intro s t hs h
  have hadvanced : MemoryCanonical (advance (closeBootWindow s)) := hs
  obtain ⟨_, rfl⟩ | ⟨_, f, _, rfl⟩ | ⟨_, w, e, _, _, rfl⟩ | ⟨_, w, i, _, _, hexec⟩ := step_cases h
  · exact hs
  · exact hs
  · exact hadvanced
  · exact exec_keeps_memoryCanonical hadvanced hexec

end Sys2Proof
end

section
/-! The decoder and the encoder as inverses of each other (O1, O2), the opcode map (O3), the unrecognised words as
no-operations (O4, O12). -/

namespace Sys2Proof

open Machine

/-! ## Encoding the fields of a word gives the word (30_encoding.md R71) -/

section Fields

variable {w : Word} {op nn n : Nat}

theorem toNat_fieldOp_eq_div (w : Word) : (fieldOp w).toNat = w.toNat / 4096 := by
  have := w.isLt
  rw [toNat_fieldOp]
  omega

theorem encodeNNN_fields (hop : w.toNat / 4096 = op) : encodeNNN op (fieldNNN w) = w := by
  have := w.isLt
  apply BitVec.eq_of_toNat_eq
  rw [toNat_encodeNNN (by omega), toNat_fieldNNN]
  omega

theorem encodeXNN_fields (hop : w.toNat / 4096 = op) (hnn : w.toNat % 256 = nn) : encodeXNN op (fieldX w) nn = w := by
  have := w.isLt
  apply BitVec.eq_of_toNat_eq
  rw [toNat_encodeXNN (by omega) _ (by omega), toNat_fieldX]
  omega

theorem encodeXYN_fields (hop : w.toNat / 4096 = op) (hn : w.toNat % 16 = n) :
    encodeXYN op (fieldX w) (fieldY w) n = w := by
  have := w.isLt
  apply BitVec.eq_of_toNat_eq
  rw [toNat_encodeXYN (by omega) _ _ (by omega), toNat_fieldX, toNat_fieldY]
  omega

theorem encodeXNN_operands (hop : w.toNat / 4096 = op) : encodeXNN op (fieldX w) (fieldNN w).toNat = w :=
  encodeXNN_fields hop (toNat_fieldNN w).symm

theorem encodeXYN_operands (hop : w.toNat / 4096 = op) : encodeXYN op (fieldX w) (fieldY w) (fieldN w).toNat = w :=
  encodeXYN_fields hop (toNat_fieldN w).symm

theorem fieldN_eq_iff {m : Nibble} : fieldN w = m ↔ w.toNat % 16 = m.toNat := by
  rw [← BitVec.toNat_inj, toNat_fieldN]

theorem fieldNN_eq_iff {b : Byte} : fieldNN w = b ↔ w.toNat % 256 = b.toNat := by
  rw [← BitVec.toNat_inj, toNat_fieldNN]

end Fields

/-! ## The decoder undoes the encoder (R70 to R75) -/

/-- The word of an instruction decodes to it: its fields are the operands, and its family and sub-opcode select its row. -/
theorem decodeWord_encodeWord (i : Instr) : decodeWord (encodeWord i) = .ok i := by
  cases i with
  | cls | ret => rfl
  | jp nnn | call nnn | ldI nnn | jpV0 nnn =>
    simp [encodeWord, decodeWord, fields_encodeNNN]
  | seImm x nn | sneImm x nn | ldImm x nn | addImm x nn | rnd x nn =>
    simp [encodeWord, decodeWord, fields_encodeXNN, nn.isLt]
  | skp x | sknp x =>
    simp [encodeWord, decodeWord, fields_encodeXNN]
  | ldVxDt x | ldVxK x | ldDtVx x | ldStVx x | addI x | ldF x | ldB x | ldMemVx x | ldVxMem x =>
    simp [encodeWord, decodeWord, decodeFamilyF, fields_encodeXNN]
  | seReg x y | sneReg x y =>
    simp [encodeWord, decodeWord, fields_encodeXYN]
  | drw x y n =>
    simp [encodeWord, decodeWord, fields_encodeXYN, n.isLt]
  | ldReg x y | orReg x y | andReg x y | xorReg x y | addReg x y | sub x y | shr x y | subn x y | shl x y =>
    simp [encodeWord, decodeWord, decodeFamily8, fields_encodeXYN]

/-- Settles O1: the two bytes make the word again, and the word decodes to its instruction. -/
theorem decodeEncodeRoundTrip : Obligations.DecodeEncodeRoundTrip := by
  intro i rest
  simp [encode, decode, decodeWord_encodeWord]

/-! ## The encoder undoes the decoder (R71, R74, R75) -/

section Decoded

variable {w : Word} {i : Instr}

theorem encodeWord_of_decodeFamily8 (hop : w.toNat / 4096 = 0x8) (h : decodeFamily8 w = .ok i) : encodeWord i = w := by
  simp only [decodeFamily8, toNat_fieldN] at h
  split at h <;> cases h
  all_goals exact encodeXYN_fields hop ‹_›

theorem encodeWord_of_decodeFamilyF (hop : w.toNat / 4096 = 0xF) (h : decodeFamilyF w = .ok i) : encodeWord i = w := by
  simp only [decodeFamilyF, toNat_fieldNN] at h
  split at h <;> cases h
  all_goals exact encodeXNN_fields hop ‹_›

/-- A decoded word is its instruction's own: the decoder took the operands from the fields, and the family and sub-opcode it
dispatched on are the ones the encoder writes. -/
theorem encodeWord_of_decodeWord (h : decodeWord w = .ok i) : encodeWord i = w := by
  simp only [decodeWord, toNat_fieldOp_eq_div] at h
  split at h
  case h_1 => -- family 0
    split_ifs at h with hcls hret <;> cases h
    · exact hcls.symm
    · exact hret.symm
  case h_2 hop | h_3 hop | h_11 hop | h_12 hop => -- families 1, 2, A, B
    cases h
    exact encodeNNN_fields hop
  case h_4 hop | h_5 hop | h_7 hop | h_8 hop | h_13 hop => -- families 3, 4, 6, 7, C
    cases h
    exact encodeXNN_operands hop
  case h_6 hop | h_10 hop => -- families 5, 9
    split_ifs at h with hn
    cases h
    exact encodeXYN_fields hop (fieldN_eq_iff.1 hn)
  case h_9 hop => exact encodeWord_of_decodeFamily8 hop h
  case h_14 hop => -- family D
    cases h
    exact encodeXYN_operands hop
  case h_15 hop => -- family E
    split_ifs at h with hskp hsknp <;> cases h
    · exact encodeXNN_fields hop (fieldNN_eq_iff.1 hskp)
    · exact encodeXNN_fields hop (fieldNN_eq_iff.1 hsknp)
  case h_16 => -- family F, the one that is left
    have hop : w.toNat / 4096 = 0xF := by
      have := w.isLt
      simp only [imp_false] at *
      omega
    exact encodeWord_of_decodeFamilyF hop h

/-- Settles O2: the encoder puts every field back where the decoder read it. -/
theorem everyDecodedWordEncodesBack : Obligations.EveryDecodedWordEncodesBack :=
  fun _ _ => encodeWord_of_decodeWord

theorem decodeWord_eq_ok_iff : decodeWord w = .ok i ↔ encodeWord i = w :=
  ⟨encodeWord_of_decodeWord, fun h => h ▸ decodeWord_encodeWord i⟩

end Decoded

/-! ## The decoder and the opcode map (R74, R75) -/

section OpcodeMap

open Laws

/-- The row of every instruction is in the map and accepts the instruction's word. -/
theorem row_mem_opcodeMap_and_accepts (i : Instr) : OpcodeRow.Statement i :=
  match i with
  | .cls => OpcodeRow.cls
  | .ret => OpcodeRow.ret
  | .jp nnn => OpcodeRow.jp nnn
  | .call nnn => OpcodeRow.call nnn
  | .seImm x nn => OpcodeRow.seImm x nn
  | .sneImm x nn => OpcodeRow.sneImm x nn
  | .seReg x y => OpcodeRow.seReg x y
  | .ldImm x nn => OpcodeRow.ldImm x nn
  | .addImm x nn => OpcodeRow.addImm x nn
  | .ldReg x y => OpcodeRow.ldReg x y
  | .orReg x y => OpcodeRow.orReg x y
  | .andReg x y => OpcodeRow.andReg x y
  | .xorReg x y => OpcodeRow.xorReg x y
  | .addReg x y => OpcodeRow.addReg x y
  | .sub x y => OpcodeRow.sub x y
  | .shr x y => OpcodeRow.shr x y
  | .subn x y => OpcodeRow.subn x y
  | .shl x y => OpcodeRow.shl x y
  | .sneReg x y => OpcodeRow.sneReg x y
  | .ldI nnn => OpcodeRow.ldI nnn
  | .jpV0 nnn => OpcodeRow.jpV0 nnn
  | .rnd x nn => OpcodeRow.rnd x nn
  | .drw x y n => OpcodeRow.drw x y n
  | .skp x => OpcodeRow.skp x
  | .sknp x => OpcodeRow.sknp x
  | .ldVxDt x => OpcodeRow.ldVxDt x
  | .ldVxK x => OpcodeRow.ldVxK x
  | .ldDtVx x => OpcodeRow.ldDtVx x
  | .ldStVx x => OpcodeRow.ldStVx x
  | .addI x => OpcodeRow.addI x
  | .ldF x => OpcodeRow.ldF x
  | .ldB x => OpcodeRow.ldB x
  | .ldMemVx x => OpcodeRow.ldMemVx x
  | .ldVxMem x => OpcodeRow.ldVxMem x

/-- Every row of the map is some instruction's row. -/
theorem exists_instr_of_mem_opcodeMap {r : Row} (hr : r ∈ opcodeMap) : ∃ i : Instr, i.row = r := by
  revert r
  simp [opcodeMap, opcodeMapLow, opcodeMapHigh]

variable {w : Word}

theorem accepts_FFFF {target : Word} : (Row.mk 0xFFFF target).accepts w = true ↔ w = target := by
  change (w &&& BitVec.allOnes 16 == target) = true ↔ _
  rw [BitVec.and_allOnes, beq_iff_eq]

/-! The word that a row accepts is the one of the row's format with the word's own fields. -/

theorem encodeNNN_of_accepts {op : Nat} (h : (Row.mk 0xF000 (BitVec.ofNat 16 (op * 4096))).accepts w = true)
    (hop : op < 16 := by decide) : encodeNNN op (fieldNNN w) = w :=
  encodeNNN_fields ((accepts_F000 op hop w).1 h)

theorem encodeXNN_operands_of_accepts {op : Nat}
    (h : (Row.mk 0xF000 (BitVec.ofNat 16 (op * 4096))).accepts w = true) (hop : op < 16 := by decide) :
    encodeXNN op (fieldX w) (fieldNN w).toNat = w :=
  encodeXNN_operands ((accepts_F000 op hop w).1 h)

theorem encodeXYN_operands_of_accepts {op : Nat}
    (h : (Row.mk 0xF000 (BitVec.ofNat 16 (op * 4096))).accepts w = true) (hop : op < 16 := by decide) :
    encodeXYN op (fieldX w) (fieldY w) (fieldN w).toNat = w :=
  encodeXYN_operands ((accepts_F000 op hop w).1 h)

theorem encodeXNN_of_accepts {op nn : Nat}
    (h : (Row.mk 0xF0FF (BitVec.ofNat 16 (op * 4096 + nn))).accepts w = true) (hop : op < 16 := by decide)
    (hnn : nn < 256 := by decide) : encodeXNN op (fieldX w) nn = w := by
  obtain ⟨hfamily, hlow⟩ := (accepts_F0FF op nn hop hnn w).1 h
  exact encodeXNN_fields hfamily hlow

theorem encodeXYN_of_accepts {op n : Nat}
    (h : (Row.mk 0xF00F (BitVec.ofNat 16 (op * 4096 + n))).accepts w = true) (hop : op < 16 := by decide)
    (hn : n < 16 := by decide) : encodeXYN op (fieldX w) (fieldY w) n = w := by
  obtain ⟨hfamily, hlow⟩ := (accepts_F00F op n hop hn w).1 h
  exact encodeXYN_fields hfamily hlow

/-- A word that a row accepts is the word of an instruction of that row: the one whose operands are the word's fields. -/
theorem exists_encodeWord_of_row_accepts (i : Instr) (h : i.row.accepts w = true) :
    ∃ j : Instr, encodeWord j = w ∧ j.row = i.row := by
  cases i with
  | cls => exact ⟨.cls, (accepts_FFFF.1 h).symm, rfl⟩
  | ret => exact ⟨.ret, (accepts_FFFF.1 h).symm, rfl⟩
  | jp => exact ⟨.jp _, encodeNNN_of_accepts h, rfl⟩
  | call => exact ⟨.call _, encodeNNN_of_accepts h, rfl⟩
  | seImm => exact ⟨.seImm _ _, encodeXNN_operands_of_accepts h, rfl⟩
  | sneImm => exact ⟨.sneImm _ _, encodeXNN_operands_of_accepts h, rfl⟩
  | seReg => exact ⟨.seReg _ _, encodeXYN_of_accepts h, rfl⟩
  | ldImm => exact ⟨.ldImm _ _, encodeXNN_operands_of_accepts h, rfl⟩
  | addImm => exact ⟨.addImm _ _, encodeXNN_operands_of_accepts h, rfl⟩
  | ldReg => exact ⟨.ldReg _ _, encodeXYN_of_accepts h, rfl⟩
  | orReg => exact ⟨.orReg _ _, encodeXYN_of_accepts h, rfl⟩
  | andReg => exact ⟨.andReg _ _, encodeXYN_of_accepts h, rfl⟩
  | xorReg => exact ⟨.xorReg _ _, encodeXYN_of_accepts h, rfl⟩
  | addReg => exact ⟨.addReg _ _, encodeXYN_of_accepts h, rfl⟩
  | sub => exact ⟨.sub _ _, encodeXYN_of_accepts h, rfl⟩
  | shr => exact ⟨.shr _ _, encodeXYN_of_accepts h, rfl⟩
  | subn => exact ⟨.subn _ _, encodeXYN_of_accepts h, rfl⟩
  | shl => exact ⟨.shl _ _, encodeXYN_of_accepts h, rfl⟩
  | sneReg => exact ⟨.sneReg _ _, encodeXYN_of_accepts h, rfl⟩
  | ldI => exact ⟨.ldI _, encodeNNN_of_accepts h, rfl⟩
  | jpV0 => exact ⟨.jpV0 _, encodeNNN_of_accepts h, rfl⟩
  | rnd => exact ⟨.rnd _ _, encodeXNN_operands_of_accepts h, rfl⟩
  | drw => exact ⟨.drw _ _ _, encodeXYN_operands_of_accepts h, rfl⟩
  | skp => exact ⟨.skp _, encodeXNN_of_accepts h, rfl⟩
  | sknp => exact ⟨.sknp _, encodeXNN_of_accepts h, rfl⟩
  | ldVxDt => exact ⟨.ldVxDt _, encodeXNN_of_accepts h, rfl⟩
  | ldVxK => exact ⟨.ldVxK _, encodeXNN_of_accepts h, rfl⟩
  | ldDtVx => exact ⟨.ldDtVx _, encodeXNN_of_accepts h, rfl⟩
  | ldStVx => exact ⟨.ldStVx _, encodeXNN_of_accepts h, rfl⟩
  | addI => exact ⟨.addI _, encodeXNN_of_accepts h, rfl⟩
  | ldF => exact ⟨.ldF _, encodeXNN_of_accepts h, rfl⟩
  | ldB => exact ⟨.ldB _, encodeXNN_of_accepts h, rfl⟩
  | ldMemVx => exact ⟨.ldMemVx _, encodeXNN_of_accepts h, rfl⟩
  | ldVxMem => exact ⟨.ldVxMem _, encodeXNN_of_accepts h, rfl⟩

/-- A word that a row of the map accepts decodes to an instruction of that row. -/
theorem exists_decodeWord_of_accepts {r : Row} (hr : r ∈ opcodeMap) (h : r.accepts w = true) :
    ∃ i, decodeWord w = .ok i ∧ i.row = r := by
  obtain ⟨i, rfl⟩ := exists_instr_of_mem_opcodeMap hr
  obtain ⟨j, hw, hrow⟩ := exists_encodeWord_of_row_accepts i h
  exact ⟨j, decodeWord_eq_ok_iff.2 hw, hrow⟩

end OpcodeMap

/-- Settles O3: a decoded word is its instruction's own, which the instruction's row accepts; two rows that accept one word are
both the row of the one instruction it decodes to. -/
theorem decoderFollowsOpcodeMap : Obligations.DecoderFollowsOpcodeMap := by
  intro w
  refine ⟨fun i hi => ?_, fun r hr h => exists_decodeWord_of_accepts hr h, fun r hr q hq h h' => ?_⟩
  · rw [← encodeWord_of_decodeWord hi]
    exact row_mem_opcodeMap_and_accepts i
  · obtain ⟨i, hi, rfl⟩ := exists_decodeWord_of_accepts hr h
    obtain ⟨j, hj, rfl⟩ := exists_decodeWord_of_accepts hq h'
    cases hi.symm.trans hj
    rfl

/-! ## The unrecognised words (R76) -/

section Unrecognised

variable {w : Word}

/-- The families and sub-opcodes of R76's table. -/
def InUnrecognisedTable (w : Word) : Prop :=
  (w.toNat / 4096 = 0x0 ∧ w.toNat ≠ 0x00E0 ∧ w.toNat ≠ 0x00EE) ∨
  (w.toNat / 4096 = 0x5 ∧ w.toNat % 16 ≠ 0) ∨
  (w.toNat / 4096 = 0x8 ∧ w.toNat % 16 ∈ [0x8, 0x9, 0xA, 0xB, 0xC, 0xD, 0xF]) ∨
  (w.toNat / 4096 = 0x9 ∧ w.toNat % 16 ≠ 0) ∨
  (w.toNat / 4096 = 0xE ∧ w.toNat % 256 ∉ [0x9E, 0xA1]) ∨
  (w.toNat / 4096 = 0xF ∧ w.toNat % 256 ∉ [0x07, 0x0A, 0x15, 0x18, 0x1E, 0x29, 0x33, 0x55, 0x65])

theorem decodeFamily8_error_iff :
    (∃ e, decodeFamily8 w = .error e) ↔ w.toNat % 16 ∈ [0x8, 0x9, 0xA, 0xB, 0xC, 0xD, 0xF] := by
  simp only [decodeFamily8, toNat_fieldN]
  split
  case h_10 =>
    simp only [imp_false] at *
    simp
    omega
  all_goals simp [*]

theorem decodeFamilyF_error_iff :
    (∃ e, decodeFamilyF w = .error e) ↔
      w.toNat % 256 ∉ [0x07, 0x0A, 0x15, 0x18, 0x1E, 0x29, 0x33, 0x55, 0x65] := by
  simp only [decodeFamilyF, toNat_fieldNN]
  split
  case h_10 =>
    simp only [imp_false] at *
    simp [*]
  all_goals simp [*]

/-- A branch that gives an instruction rejects nothing. -/
theorem exists_ite_ok_eq_error_iff {c : Prop} [Decidable c] {i : Instr} {r : Except DecodeReject Instr} :
    (∃ e, (if c then .ok i else r) = .error e) ↔ ¬ c ∧ ∃ e, r = .error e := by
  by_cases hc : c <;> simp [hc]

theorem decodeWord_error_iff : (∃ e, decodeWord w = .error e) ↔ InUnrecognisedTable w := by
  simp only [decodeWord, toNat_fieldOp_eq_div, InUnrecognisedTable]
  split
  case h_1 hop => -- family 0
    simp [hop, exists_ite_ok_eq_error_iff, ← BitVec.toNat_inj]
  case h_6 hop | h_10 hop => -- families 5, 9
    simp [hop, exists_ite_ok_eq_error_iff, fieldN_eq_iff]
  case h_9 hop => -- family 8
    simpa [hop] using decodeFamily8_error_iff
  case h_15 hop => -- family E
    simp [hop, exists_ite_ok_eq_error_iff, fieldNN_eq_iff]
  case h_16 => -- family F, the one that is left
    have hop : w.toNat / 4096 = 0xF := by
      have := w.isLt
      simp only [imp_false] at *
      omega
    simpa [hop] using decodeFamilyF_error_iff
  all_goals simp [*] -- the families without a sub-opcode reject nothing

end Unrecognised

section NoOperation

variable {s : State}

/-- What a running core does at an unrecognised word: PC moves on by 2, and the boot window is closed (R76). -/
theorem Running.noOperation_of_atUnrecognised (hrun : Running s) (h : AtUnrecognised s) :
    ∃ t, step s = .next t ∧ t.pc.toNat = s.pc.toNat + 2 ∧ UnchangedExcept [.pc, .hasRun] s t := by
  have hclosed : UnchangedExcept [.pc, .hasRun] s (closeBootWindow s) :=
    (UnchangedExcept.refl _ s).setHasRun (.tail _ (.head _)) true
  exact ⟨_, step_of_atUnrecognised hrun h, advance_pc h.1, hclosed.setPc (.head _) _⟩

theorem atUnrecognised_of_zeroes (hpc : s.pc.toNat ≤ 0xFFE) (hhi : s.mem.read s.pc.toNat = 0)
    (hlo : s.mem.read (s.pc.toNat + 1) = 0) : AtUnrecognised s := by
  refine ⟨hpc, 0, ?_⟩
  rw [hhi, hlo]
  rfl

end NoOperation

/-- Settles O4: the decoder's branches that reject are R76's table, and the step of such a word is the advance alone. -/
theorem unrecognisedWordsAreNoOperations : Obligations.UnrecognisedWordsAreNoOperations :=
  ⟨fun _ => decodeWord_error_iff, fun _ => Running.noOperation_of_atUnrecognised⟩

/-- Settles O12: the word of two zero bytes is unrecognised, so it is a no-operation; above 0xFFE the fetch faults. -/
theorem zeroedMemoryIsWalkedThrough : Obligations.ZeroedMemoryIsWalkedThrough := by
  intro s hrun
  refine ⟨fun hpc hhi hlo => ?_, fun hpc => ⟨_, hrun.step_of_pc_above hpc, rfl⟩⟩
  exact hrun.noOperation_of_atUnrecognised (atUnrecognised_of_zeroes hpc hhi hlo)

end Sys2Proof
end

section
/-! A step in its four cases (O6, O7), the halted core (O8, O9), `toggle_pause` (O47) and the timer tick (O46). -/

namespace Sys2Proof

open Machine

/-! ## A step in its cases (40_execution_engine.md R91 to R97) -/

section StepCases

variable {s : State}

theorem step_answers_next (s : State) : ∃ t, step s = .next t := by
  cases hrun : halted s with
  | true => exact ⟨_, step_of_halted hrun⟩
  | false =>
    cases hw : fetch s with
    | error f => exact ⟨_, step_of_fetch_error hrun hw⟩
    | ok w =>
      cases hi : decodeWord w with
      | error e => exact ⟨_, step_of_unrecognised hrun hw hi⟩
      | ok i =>
        obtain ⟨t, ht⟩ := exec_answers_next i (advance (closeBootWindow s))
        exact ⟨t, (step_of_instr hrun hw hi).trans ht⟩

theorem halted_of_not_running (h : ¬ Running s) : halted s = true := by
  by_contra hrun
  exact h (running_of_not_halted (Bool.eq_false_of_not_eq_true hrun))

end StepCases

/-- Settles O7: every case of a step answers a next state, and every instruction does. -/
theorem stepAlwaysAnswersNext : Obligations.StepAlwaysAnswersNext := step_answers_next

/-- Settles O6: the equation of each case of a step, with the advance and the closed boot window written out as field updates. -/
theorem stepIsFetchDecodeExecute : Obligations.StepIsFetchDecodeExecute := by
  intro s
  exact ⟨fun hrun _ hi => step_of_atInstr hrun hi, fun hrun hu => step_of_atUnrecognised hrun hu,
    fun hrun hpc => hrun.step_of_pc_above hpc, fun hrun => step_of_halted (halted_of_not_running hrun)⟩

/-! ## The halted core (R91, R92, R100) -/

section Halted

variable {s : State} {r : Refusal}

theorem closeBootWindow_frame (s : State) : UnchangedExcept [.hasRun] s (closeBootWindow s) :=
  (UnchangedExcept.refl _ s).setHasRun (.head _) true

theorem cycle_of_halted (h : halted s = true) : cycle s = .next (closeBootWindow s) := by
  simp [cycle, h]

/-- On a halted core `step` and `cycle` close the boot window and do nothing else. -/
theorem step_and_cycle_frame_of_halted (h : halted s = true) :
    (∃ t, step s = .next t ∧ UnchangedExcept [.hasRun] s t) ∧
      (∃ t, cycle s = .next t ∧ UnchangedExcept [.hasRun] s t) :=
  ⟨⟨_, step_of_halted h, closeBootWindow_frame s⟩, ⟨_, cycle_of_halted h, closeBootWindow_frame s⟩⟩

theorem togglePause_of_fault (h : s.fault ≠ none) : togglePause s = s := by
  rw [togglePause, if_pos (Option.isSome_iff_ne_none.2 h)]

theorem loadRefusal_of_fault (h : s.fault ≠ none) : loadRefusal s = some .coreFaulted := by
  rw [loadRefusal, if_pos (Option.isSome_iff_ne_none.2 h)]

theorem loadFont_of_refusal (font : Vector Byte 80) (h : loadRefusal s = some r) : loadFont font s = .refused r := by
  rw [loadFont, h]

theorem loadProgram_of_refusal (bytes : List Byte) (h : loadRefusal s = some r) : loadProgram bytes s = .refused r := by
  rw [loadProgram, h]

end Halted

/-- Settles O8: a faulted core is halted, and `toggle_pause` and the loads test the latch first. -/
theorem faultedCoreOnlyInitialises : Obligations.FaultedCoreOnlyInitialises := by
  intro s hf
  obtain ⟨hstep, hcycle⟩ := step_and_cycle_frame_of_halted ((halted_iff s).2 (.inl hf))
  have hrefusal := loadRefusal_of_fault hf
  exact ⟨hstep, hcycle, togglePause_of_fault hf, fun font => ⟨_, loadFont_of_refusal font hrefusal⟩,
    fun bytes => ⟨_, loadProgram_of_refusal bytes hrefusal⟩, rfl⟩

/-- Settles O9: a Paused core is halted. -/
theorem pausedCoreRunsNothing : Obligations.PausedCoreRunsNothing :=
  fun s hr => step_and_cycle_frame_of_halted ((halted_iff s).2 (.inr hr))

/-! ## `toggle_pause` (R102) -/

section TogglePause

variable {s t : State} {ps : List Part}

theorem UnchangedExcept.setRun (h : UnchangedExcept ps s t) (hq : .run ∈ ps) (r : RunState) :
    UnchangedExcept ps s (t.setRun r) :=
  h.update hq fun p hp => by cases p <;> simp [Same] at hp ⊢

theorem togglePause_of_playing (hf : s.fault = none) (hr : s.run = .playing) : togglePause s = s.setRun .paused := by
  simp [togglePause, hf, hr]

theorem togglePause_of_paused (hf : s.fault = none) (hr : s.run = .paused) : togglePause s = s.setRun .playing := by
  simp [togglePause, hf, hr]

/-- Whatever the core, `toggle_pause` writes RUN or nothing. -/
theorem exists_togglePause_eq_setRun (s : State) : ∃ r, togglePause s = s.setRun r := by
  by_cases hf : s.fault = none
  · cases hr : s.run with
    | playing => exact ⟨_, togglePause_of_playing hf hr⟩
    | paused => exact ⟨_, togglePause_of_paused hf hr⟩
  · exact ⟨s.run, togglePause_of_fault hf⟩

/-- The second toggle puts back the value of RUN that the first one took away. -/
theorem togglePause_togglePause (hf : s.fault = none) : togglePause (togglePause s) = s := by
  cases hr : s.run with
  | playing =>
    rw [togglePause_of_playing hf hr, togglePause_of_paused (s := s.setRun .paused) hf rfl]
    exact congrArg s.setRun hr.symm
  | paused =>
    rw [togglePause_of_paused hf hr, togglePause_of_playing (s := s.setRun .playing) hf rfl]
    exact congrArg s.setRun hr.symm

end TogglePause

/-- Settles O47: one equation for each value of RUN, and the latch tested first. -/
theorem togglePauseFlipsRunOnly : Obligations.TogglePauseFlipsRunOnly := by
  intro s
  refine ⟨fun hf => ⟨fun hr => ?_, fun hr => ?_, ?_, togglePause_togglePause hf⟩, togglePause_of_fault⟩
  · rw [togglePause_of_playing hf hr, State.setRun_run]
  · rw [togglePause_of_paused hf hr, State.setRun_run]
  · obtain ⟨r, hr⟩ := exists_togglePause_eq_setRun s
    rw [hr]
    exact (UnchangedExcept.refl _ s).setRun (.head _) r

/-! ## The timer tick (R99) -/

theorem timerTick_frame (s : State) : UnchangedExcept [.dt, .st] s (timerTick s) :=
  ((UnchangedExcept.refl _ s).setDt (.head _) _).setSt (.tail _ (.head _)) _

/-- Settles O46: each timer counts down by `countDown`, and the tick writes the two alone. -/
theorem timerTickCountsDownToZero : Obligations.TimerTickCountsDownToZero :=
  fun s => ⟨toNat_countDown s.dt, toNat_countDown s.st, timerTick_frame s⟩

end Sys2Proof
end

section
/-! What a step writes: a timer only by a timer instruction (O40), and always the mark of a closed boot window. -/

namespace Sys2Proof

open Machine

section StepWrites

variable {i : Instr} {p : Part} {s t : State}

/-- The word that the fetch gives is the instruction at PC. -/
theorem atInstr_of_fetch {w : Word} (hw : fetch s = .ok w) (hi : decodeWord w = .ok i) : AtInstr i s := by
  have hpc := pc_le_of_fetch_ok hw
  rw [fetch_ok hpc] at hw
  cases hw
  exact ⟨hpc, decode_pair_eq_ok_iff.2 hi⟩

/-- An element that a step changed, other than those the step writes around the instruction, is one that the instruction at PC
writes. -/
theorem step_writes (hp : p ∉ [.pc, .fault, .hasRun]) (h : step s = .next t) (hchanged : ¬ Same p s t) :
    Running s ∧ ∃ i, AtInstr i s ∧ p ∈ i.writes ∧ exec i (advance (closeBootWindow s)) = .next t := by
  have hclosed : UnchangedExcept [.pc, .fault, .hasRun] s (closeBootWindow s) :=
    (UnchangedExcept.refl _ s).setHasRun (.tail _ (.tail _ (.head _))) true
  have hadvanced : UnchangedExcept [.pc, .fault, .hasRun] s (advance (closeBootWindow s)) := hclosed.setPc (.head _) _
  obtain ⟨_, rfl⟩ | ⟨_, f, _, rfl⟩ | ⟨_, w, e, _, _, rfl⟩ | ⟨hrun, w, i, hw, hi, hexec⟩ := step_cases h
  · exact absurd (hclosed p hp) hchanged
  · exact absurd (hclosed.setFault (.tail _ (.head _)) _ p hp) hchanged
  · exact absurd (hadvanced p hp) hchanged
  · have hfault : p ≠ .fault := by
      rintro rfl
      simp at hp
    refine ⟨running_of_not_halted hrun, i, atInstr_of_fetch hw hi, ?_, hexec⟩
    by_contra hwrites
    exact hchanged ((hadvanced p hp).trans (exec_keeps hwrites hfault hexec))

/-- Fx15 alone writes DT (45_keys_timers.md R184). -/
theorem Instr.dt_mem_writes (h : Part.dt ∈ i.writes) : ∃ x, i = .ldDtVx x := by
  cases i <;> simp [Instr.writes] at h ⊢

/-- Fx18 alone writes ST (45_keys_timers.md R185). -/
theorem Instr.st_mem_writes (h : Part.st ∈ i.writes) : ∃ x, i = .ldStVx x := by
  cases i <;> simp [Instr.writes] at h ⊢

theorem Instr.hasRun_notMem_writes (i : Instr) : Part.hasRun ∉ i.writes := by
  cases i <;> simp [Instr.writes]

/-- Every step closes the boot window (70_reset_and_hazards.md R234). -/
theorem step_hasRun (h : step s = .next t) : t.hasRun = true := by
  obtain ⟨_, rfl⟩ | ⟨_, f, _, rfl⟩ | ⟨_, w, e, _, _, rfl⟩ | ⟨_, w, i, _, _, hexec⟩ := step_cases h
  · rfl
  · rfl
  · rfl
  · exact exec_keeps (p := .hasRun) i.hasRun_notMem_writes (by decide) hexec

end StepWrites

/-- Settles O40: a timer that a step changed is one that the instruction at PC writes, and only Fx15 and Fx18 write one. -/
theorem stepMovesTimersOnlyByTimerInstructions : Obligations.StepMovesTimersOnlyByTimerInstructions := by
  intro s t h
  constructor
  · intro hdt
    obtain ⟨hrun, i, hi, hwrites, hexec⟩ := step_writes (p := .dt) (by decide) h hdt
    obtain ⟨x, rfl⟩ := Instr.dt_mem_writes hwrites
    cases hexec
    exact ⟨hrun, x, hi, rfl⟩
  · intro hst
    obtain ⟨hrun, i, hi, hwrites, hexec⟩ := step_writes (p := .st) (by decide) h hst
    obtain ⟨x, rfl⟩ := Instr.st_mem_writes hwrites
    cases hexec
    exact ⟨hrun, x, hi, rfl⟩

end Sys2Proof
end

section
/-! A run of steps and the cycle (O44, O45). -/

namespace Sys2Proof

open Machine

/-! ## A run of steps (40_execution_engine.md R98, R101) -/

section RunSteps

variable {n : Nat} {s t : State} {u : Nat → State}

theorem runSteps_answers_next (n : Nat) (s : State) : ∃ t, runSteps n s = .next t := by
  induction n generalizing s with
  | zero => exact ⟨s, rfl⟩
  | succ n ih =>
    obtain ⟨t, ht⟩ := step_answers_next s
    rw [runSteps_succ ht]
    by_cases hf : t.fault.isSome
    · exact ⟨t, if_pos hf⟩
    · rw [if_neg hf]
      exact ih t

/-- What every step keeps, a run of steps keeps. -/
theorem runSteps_keeps {P : State → Prop} (hstep : ∀ s t, P s → step s = .next t → P t) (hs : P s)
    (h : runSteps n s = .next t) : P t := by
  induction n generalizing s with
  | zero =>
    cases h
    exact hs
  | succ n ih =>
    obtain ⟨u, hu⟩ := step_answers_next s
    have hPu := hstep s u hs hu
    rw [runSteps_succ hu] at h
    split_ifs at h
    · cases h
      exact hPu
    · exact ih hPu h

/-- The states that `n` steps in a row go through, none of which leaves a fault. -/
def StepsWithoutFault (n : Nat) (u : Nat → State) : Prop :=
  ∀ k, k < n → step (u k) = .next (u (k + 1)) ∧ (u (k + 1)).fault = none

/-- A run begins with its steps that leave no fault, and goes on from the state they reach. -/
theorem StepsWithoutFault.runSteps_add (h : StepsWithoutFault n u) (m : Nat) :
    runSteps (n + m) (u 0) = runSteps m (u n) := by
  induction n generalizing m with
  | zero => rw [Nat.zero_add]
  | succ n ih =>
    obtain ⟨hstep, hfault⟩ := h n (Nat.lt_succ_self n)
    have hearlier : StepsWithoutFault n u := fun k hk => h k (Nat.lt_succ_of_lt hk)
    calc runSteps (n + 1 + m) (u 0)
        = runSteps (n + (m + 1)) (u 0) := by rw [Nat.add_right_comm, Nat.add_assoc]
      _ = runSteps (m + 1) (u n) := ih hearlier (m + 1)
      _ = runSteps m (u (n + 1)) := by rw [runSteps_succ hstep, hfault]; rfl

theorem runSteps_of_faulting_step (m : Nat) (h : step s = .next t) (hf : t.fault ≠ none) :
    runSteps (m + 1) s = .next t := by
  rw [runSteps_succ h, if_pos (Option.isSome_iff_ne_none.2 hf)]

end RunSteps

/-! ## The cycle (R98 to R101) -/

section Cycle

variable {s t : State}

/-- The steps of a cycle that runs: a step closes the boot window itself, so it need not be closed before. -/
theorem cycle_of_running (hrun : halted s = false) (h : runSteps 10 s = .next t) :
    cycle s = if t.fault.isSome then .next t else .next (timerTick t) := by
  have hsteps : runSteps Config.stepsPerCycle (closeBootWindow s) = .next t := h
  simp [cycle, hrun, hsteps]

/-- A fault ends the cycle without a tick (R101). -/
theorem cycle_of_faulting_run (hrun : halted s = false) (h : runSteps 10 s = .next t) (hf : t.fault ≠ none) :
    cycle s = .next t := by
  rw [cycle_of_running hrun h, if_pos (Option.isSome_iff_ne_none.2 hf)]

theorem cycle_of_completed_run (hrun : halted s = false) (h : runSteps 10 s = .next t) (hf : t.fault = none) :
    cycle s = .next (timerTick t) := by
  rw [cycle_of_running hrun h, hf]
  rfl

theorem cycle_answers_next (s : State) : ∃ t, cycle s = .next t := by
  cases hrun : halted s with
  | true => exact ⟨_, cycle_of_halted hrun⟩
  | false =>
    obtain ⟨t, ht⟩ := runSteps_answers_next 10 s
    by_cases hf : t.fault = none
    · exact ⟨_, cycle_of_completed_run hrun ht hf⟩
    · exact ⟨_, cycle_of_faulting_run hrun ht hf⟩

/-- What holds once the boot window is closed, and every step and the timer tick keep, holds after a cycle. -/
theorem cycle_keeps {P : State → Prop} (hstep : ∀ s t, P s → step s = .next t → P t)
    (htick : ∀ s, P s → P (timerTick s)) (hs : P (closeBootWindow s)) (h : cycle s = .next t) : P t := by
  cases hrun : halted s with
  | true =>
    rw [cycle_of_halted hrun] at h
    cases h
    exact hs
  | false =>
    obtain ⟨u, hu⟩ := runSteps_answers_next 10 s
    have hPu : P u := runSteps_keeps (n := 10) hstep hs hu
    by_cases hf : u.fault = none
    · rw [cycle_of_completed_run hrun hu hf] at h
      cases h
      exact htick u hPu
    · rw [cycle_of_faulting_run hrun hu hf] at h
      cases h
      exact hPu

/-- An element that no instruction writes, and no part of a cycle around the instructions, is as before after every cycle. -/
theorem cycle_keeps_part {p : Part} (hstep : p ∉ [.pc, .fault, .hasRun]) (htick : p ∉ [.dt, .st])
    (hwrites : ∀ i : Instr, p ∉ i.writes) (h : cycle s = .next t) : Same p s t := by
  have hmark : p ∉ [.hasRun] := fun hp => hstep (.tail _ (.tail _ hp))
  exact cycle_keeps (P := Same p s) (fun _ _ hs ht => hs.trans (step_keeps hstep hwrites ht))
    (fun u hu => hu.trans (timerTick_frame u p htick)) (closeBootWindow_frame s p hmark) h

theorem cycle_hasRun (h : cycle s = .next t) : t.hasRun = true :=
  cycle_keeps (P := fun u => u.hasRun = true) (fun _ _ _ => step_hasRun) (fun _ hu => hu) rfl h

end Cycle

/-- Settles O44: the steps without a fault are the run's first, so ten of them are the whole run, and one that leaves a fault ends
it. -/
theorem cycleIsTenStepsThenOneTick : Obligations.CycleIsTenStepsThenOneTick := by
  intro s
  refine ⟨fun hnot => (step_and_cycle_frame_of_halted (halted_of_not_running hnot)).2, fun hrun u hu => ?_⟩
  subst hu
  refine ⟨fun hsteps => ?_, fun n hn hsteps hstep hf => ?_⟩
  · have hten : runSteps 10 (u 0) = .next (u 10) := StepsWithoutFault.runSteps_add (n := 10) hsteps 0
    obtain ⟨hdt, hst, hframe⟩ := timerTickCountsDownToZero (u 10)
    exact ⟨_, cycle_of_completed_run hrun.not_halted hten (hsteps 9 (by decide)).2, hdt, hst, hframe⟩
  · obtain ⟨m, hm⟩ : ∃ m, 10 = n + (m + 1) := Nat.exists_eq_add_of_lt hn
    have hrest : runSteps 10 (u 0) = .next (u (n + 1)) := by
      rw [hm, StepsWithoutFault.runSteps_add hsteps, runSteps_of_faulting_step m hstep hf]
    exact cycle_of_faulting_run hrun.not_halted hrest hf

/-- Settles O45: a run of steps answers a next state, and RUN, KEYS and STACK_LIMIT are on no instruction's list. -/
theorem cycleAlwaysAnswersNext : Obligations.CycleAlwaysAnswersNext := by
  intro s
  obtain ⟨t, h⟩ := cycle_answers_next s
  exact ⟨t, h, cycle_keeps_part (p := .run) (by decide) (by decide) Instr.run_notMem_writes h,
    cycle_keeps_part (p := .keys) (by decide) (by decide) Instr.keys_notMem_writes h,
    cycle_keeps_part (p := .stackLimit) (by decide) (by decide) Instr.stackLimit_notMem_writes h, cycle_hasRun h⟩

end Sys2Proof
end

section
/-! The invariants under every operation (O58). -/

namespace Sys2Proof

open Machine

/-! ## DISP in its canonical form under a step (44_display.md R173) -/

section DisplayCanonical

variable {i : Instr} {s t : State}

/-- 00E0 and Dxyn alone write DISP (10_state.md R34). -/
theorem Instr.disp_mem_writes (h : Part.disp ∈ i.writes) : i = .cls ∨ ∃ x y n, i = .drw x y n := by
  cases i <;> simp [Instr.writes] at h ⊢

/-- A sprite has at most 15 rows, so a draw stays inside the coordinate domain. -/
theorem drw_keeps_displayCanonical {x y n : Nibble} (hs : DisplayCanonical s) (h : exec (.drw x y n) s = .next t) :
    DisplayCanonical t := by
  change execDrw x y n s = .next t at h
  cases hf : accessFault n.toNat s with
  | some f =>
    rw [execDrw_of_fault x y hf] at h
    cases h
    exact hs
  | none =>
    rw [execDrw_of_no_fault x y hf] at h
    cases h
    have hrows : (s.mem.readBytes s.i.toNat n.toNat).length ≤ 15 := by
      have := n.isLt
      rw [Memory.length_readBytes]
      omega
    exact wf_drawSprite _ _ _ hrows hs

theorem exec_keeps_displayCanonical (hs : DisplayCanonical s) (h : exec i s = .next t) : DisplayCanonical t := by
  by_cases hi : Part.disp ∈ i.writes
  · obtain rfl | ⟨x, y, n, rfl⟩ := Instr.disp_mem_writes hi
    · cases h
      exact ⟨List.Pairwise.nil, fun _ hp => absurd hp List.not_mem_nil⟩
    · exact drw_keeps_displayCanonical hs h
  · have hsame : t.disp = s.disp := exec_keeps hi (by decide) h
    rwa [DisplayCanonical, hsame]

theorem step_keeps_displayCanonical (hs : DisplayCanonical s) (h : step s = .next t) : DisplayCanonical t := by
  have hadvanced : DisplayCanonical (advance (closeBootWindow s)) := hs
  obtain ⟨_, rfl⟩ | ⟨_, f, _, rfl⟩ | ⟨_, w, e, _, _, rfl⟩ | ⟨_, w, i, _, _, hexec⟩ := step_cases h
  · exact hs
  · exact hs
  · exact hadvanced
  · exact exec_keeps_displayCanonical hadvanced hexec

end DisplayCanonical

/-! ## All the invariants -/

section Inv

variable {s t : State}

/-- The invariants do not speak of RUN, of KEYS or of the timers. -/
theorem Inv.setRun (hs : Inv s) (r : RunState) : Inv (s.setRun r) :=
  ⟨hs.memory, hs.display, hs.control, hs.depth, hs.ran⟩

theorem Inv.setKeys (hs : Inv s) (keys : Word) : Inv (s.setKeys keys) :=
  ⟨hs.memory, hs.display, hs.control, hs.depth, hs.ran⟩

theorem Inv.timerTick (hs : Inv s) : Inv (timerTick s) :=
  ⟨hs.memory, hs.display, hs.control, hs.depth, hs.ran⟩

theorem Inv.closeBootWindow (hs : Inv s) : Inv (closeBootWindow s) :=
  ⟨hs.memory, hs.display, hs.control, hs.depth, fun _ => rfl⟩

/-- A block written inside the array keeps the invariants. -/
theorem Inv.setMem_writeBytes (hs : Inv s) {a : Nat} {bytes : List Byte} (h : a + bytes.length ≤ Config.memSize) :
    Inv (s.setMem (s.mem.writeBytes a bytes)) :=
  ⟨Memory.wf_writeBytes bytes hs.memory h, hs.display, hs.control, hs.depth, hs.ran⟩

theorem inv_initialise (s : State) : Inv (initialise s) := by
  obtain ⟨hmemory, hdisplay, hcontrol, _, hran⟩ := resetMeetsEveryInvariant
  exact ⟨hmemory, hdisplay, hcontrol, fun _ _ => Nat.zero_le _, hran⟩

theorem Inv.togglePause (hs : Inv s) : Inv (togglePause s) := by
  obtain ⟨r, hr⟩ := exists_togglePause_eq_setRun s
  rw [hr]
  exact hs.setRun r

theorem Inv.of_step (hs : Inv s) (h : step s = .next t) : Inv t :=
  ⟨stepKeepsMemoryCanonical s t hs.memory h, step_keeps_displayCanonical hs.display h,
    stepKeepsPcAndStackInRange s t hs.control h, stepKeepsStackWithinLimit s t hs.depth h, fun _ => step_hasRun h⟩

theorem Inv.of_cycle (hs : Inv s) (h : cycle s = .next t) : Inv t :=
  cycle_keeps (fun _ _ => Inv.of_step) (fun _ => Inv.timerTick) hs.closeBootWindow h

/-- The font table ends below the program base, inside memory (70_reset_and_hazards.md R231). -/
theorem Inv.of_loadFont {font : Vector Byte 80} (hs : Inv s) (h : loadFont font s = .next t) : Inv t := by
  cases hr : loadRefusal s with
  | some r => simp [loadFont_of_refusal font hr] at h
  | none =>
    obtain ⟨hf, hwindow⟩ := (loadRefusal_eq_none s).1 hr
    rw [loadFont_eq font hf hwindow] at h
    cases h
    exact hs.setMem_writeBytes (by simp [Config.memSize])

/-- A program longer than PROG_MAX is turned away (R232). -/
theorem loadProgram_of_too_long {bytes : List Byte} (hr : loadRefusal s = none) (hb : ¬ bytes.length ≤ 3584) :
    loadProgram bytes s = .refused (.programTooLong bytes.length) := by
  simp [loadProgram, hr, programWellFormed, Config.progMax, hb]

/-- The longest program that is accepted ends at the end of memory (R232). -/
theorem Inv.of_loadProgram {bytes : List Byte} (hs : Inv s) (h : loadProgram bytes s = .next t) : Inv t := by
  cases hr : loadRefusal s with
  | some r => simp [loadProgram_of_refusal bytes hr] at h
  | none =>
    by_cases hb : bytes.length ≤ 3584
    · obtain ⟨hf, hwindow⟩ := (loadRefusal_eq_none s).1 hr
      rw [loadProgram_eq hb hf hwindow] at h
      cases h
      refine hs.setMem_writeBytes ?_
      change 0x200 + bytes.length ≤ 4096
      omega
    · simp [loadProgram_of_too_long hr hb] at h

end Inv

/-- Settles O58: one lemma per operation; a cycle is steps and a tick, and each invariant is kept by a step. -/
theorem everyOperationKeepsTheInvariants : Obligations.EveryOperationKeepsTheInvariants := by
  intro op s t hs h
  cases op with
  | initialise =>
    cases h
    exact inv_initialise s
  | loadFont font => exact hs.of_loadFont h
  | loadProgram bytes => exact hs.of_loadProgram h
  | step keys => exact (hs.setKeys keys).of_step h
  | cycle keys => exact (hs.setKeys keys).of_cycle h
  | togglePause =>
    cases h
    exact hs.togglePause

end Sys2Proof
end

section
/-! The control-flow instructions: call and return (O42, O13, O15), the jumps (O14, O16), the skips (O17, O18). -/

namespace Sys2Proof

open Machine

/-! ## The word of an instruction, and what a raise and a skip leave -/

/-- The number of an instruction's own word is its opcode. -/
theorem decodesTo_of_toNat_encodeWord {i : Instr} {w : Nat} (h : (encodeWord i).toNat = w) : DecodesTo w i := by
  subst h
  refine ⟨(encodeWord i).isLt, ?_⟩
  rw [BitVec.ofNat_toNat, BitVec.setWidth_eq]
  exact decodeWord_encodeWord i

section Effects

variable {i : Instr} {s : State} {f : Fault}

/-- An instruction that raises latches its fault and changes nothing else (60_exceptions.md R208). -/
theorem exec_latches_of_raise (h : exec i s = raise f s) :
    ∃ t, exec i s = .next t ∧ t.fault = some f ∧ UnchangedExcept [.fault] s t :=
  ⟨_, h, rfl, (UnchangedExcept.refl _ s).setFault (.head _) _⟩

theorem skipIf_frame (c : Bool) (s : State) : UnchangedExcept [.pc] s (skipIf c s) :=
  (UnchangedExcept.refl _ s).skipIf (.head _) c

theorem skipIf_beq_pc (a b : Byte) (s : State) :
    (skipIf (a == b) s).pc = if a.toNat = b.toNat then s.pc + 2 else s.pc := by
  simp only [skipIf_pc, beq_iff_eq, BitVec.toNat_inj]

theorem skipIf_bne_pc (a b : Byte) (s : State) :
    (skipIf (a != b) s).pc = if a.toNat = b.toNat then s.pc else s.pc + 2 := by
  simp only [skipIf_pc, bne_iff_ne, BitVec.toNat_inj, ite_not]

end Effects

/-! ## Call and return (41_control_flow.md R110, R112, R119) -/

section CallAndReturn

variable {s : State}

theorem ret_pops {top : Word} {rest : List Word} (h : s.stack = top :: rest) :
    ∃ t, exec .ret s = .next t ∧ t.pc = top ∧ t.stack = rest ∧ UnchangedExcept [.pc, .stack] s t :=
  ⟨_, execRet_of_cons h, rfl, rfl, ((UnchangedExcept.refl _ s).setStack (.tail _ (.head _)) _).setPc (.head _) _⟩

theorem call_pushes (nnn : Addr12) (h : s.stackLimit ≠ some s.stack.length) :
    ∃ t, exec (.call nnn) s = .next t ∧ t.pc.toNat = nnn.toNat ∧ t.stack = s.pc :: s.stack ∧
      UnchangedExcept [.pc, .stack] s t :=
  ⟨_, execCall_of_not_full nnn h, toNat_zextAddr nnn, rfl,
    ((UnchangedExcept.refl _ s).setStack (.tail _ (.head _)) _).setPc (.head _) _⟩

end CallAndReturn

/-- Settles O42: what 00EE pops is what 2nnn pushed, the advanced PC on the STACK from before the call. -/
theorem callThenReturnComesBack : Obligations.CallThenReturnComesBack := by
  intro nnn s hroom
  obtain ⟨t, hcall, -, hpushed, hframe⟩ := call_pushes nnn hroom
  exact ⟨t, hcall, hframe, fun u hu => ret_pops (hu.trans hpushed)⟩

/-- Settles O13: one case for each form of STACK. -/
theorem retPopsOrUnderflows : Obligations.RetPopsOrUnderflows :=
  ⟨decodesTo_of_toNat_encodeWord rfl,
    fun _ => ⟨fun _ _ => ret_pops, fun hempty => exec_latches_of_raise (execRet_of_nil hempty)⟩⟩

/-- Settles O15: one case for each side of STACK_LIMIT. -/
theorem callPushesTheReturnAddress : Obligations.CallPushesTheReturnAddress := by
  intro nnn s
  exact ⟨decodesTo_of_toNat_encodeWord (toNat_encodeNNN (by decide) nnn), call_pushes nnn,
    fun hfull => exec_latches_of_raise (execCall_of_full nnn hfull)⟩

/-! ## The jumps (R111, R117) -/

/-- Settles O14: the target is the operand with its upper four bits zero. -/
theorem jumpLoadsTheTwelveBitTarget : Obligations.JumpLoadsTheTwelveBitTarget := by
  intro nnn s
  exact ⟨decodesTo_of_toNat_encodeWord (toNat_encodeNNN (by decide) nnn),
    _, rfl, toNat_zextAddr nnn, (UnchangedExcept.refl _ s).setPc (.head _) _⟩

/-- Settles O16: the 16-bit sum of a 12-bit address and a byte does not wrap. -/
theorem jumpWithOffsetAddsV0 : Obligations.JumpWithOffsetAddsV0 := by
  intro nnn s
  exact ⟨decodesTo_of_toNat_encodeWord (toNat_encodeNNN (by decide) nnn),
    _, rfl, toNat_zextAddr_add_zextByte nnn (s.getV 0), (UnchangedExcept.refl _ s).setPc (.head _) _⟩

/-! ## The skips (R113 to R116) -/

/-- Settles O17: both forms are `skipIf` on the comparison of Vx with nn. -/
theorem immediateSkipsCompareVxWithNn : Obligations.ImmediateSkipsCompareVxWithNn := by
  intro x nn s
  refine ⟨?_, ?_, ?_, ?_⟩
  · exact decodesTo_of_toNat_encodeWord (toNat_encodeXNN (by decide) x nn.isLt)
  · exact decodesTo_of_toNat_encodeWord (toNat_encodeXNN (by decide) x nn.isLt)
  · exact ⟨_, rfl, skipIf_beq_pc _ _ s, skipIf_frame _ s⟩
  · exact ⟨_, rfl, skipIf_bne_pc _ _ s, skipIf_frame _ s⟩

/-- Families 5 and 9 have one row each, with the low nibble 0 (30_encoding.md R76). -/
theorem decodeWord_of_register_skip_family {w : Word} (hop : w.toNat / 4096 = 0x5 ∨ w.toNat / 4096 = 0x9)
    (hn : w.toNat % 16 ≠ 0) : decodeWord w = .error (.unrecognised w) := by
  have htable : InUnrecognisedTable w := by
    obtain hop | hop := hop
    · exact .inr (.inl ⟨hop, hn⟩)
    · exact .inr (.inr (.inr (.inl ⟨hop, hn⟩)))
  obtain ⟨e, he⟩ := decodeWord_error_iff.2 htable
  rw [he, decodeWord_error he]

/-- Settles O18: both forms are `skipIf` on the comparison of Vx with Vy, and the other low nibbles are in R76's table. -/
theorem registerSkipsCompareVxWithVy : Obligations.RegisterSkipsCompareVxWithVy := by
  refine ⟨fun x y s => ⟨?_, ?_, ?_, ?_⟩, fun w => decodeWord_of_register_skip_family⟩
  · exact decodesTo_of_toNat_encodeWord (toNat_encodeXYN (by decide) x y (by decide))
  · exact decodesTo_of_toNat_encodeWord (toNat_encodeXYN (by decide) x y (by decide))
  · exact ⟨_, rfl, skipIf_beq_pc _ _ s, skipIf_frame _ s⟩
  · exact ⟨_, rfl, skipIf_bne_pc _ _ s, skipIf_frame _ s⟩

end Sys2Proof
end

section
/-! The register instructions: the loads and 7xnn (O19, O20), the logic (O21), the arithmetic (O22, O23), the shifts (O24) and
the random byte (O25). -/

namespace Sys2Proof

open Machine

/-! ## The words of family 8, and the arithmetic of bytes as numbers -/

theorem toNat_encodeXYN_family8 {n : Nat} (x y : Nibble) (hn : n < 16) :
    (encodeXYN 0x8 x y n).toNat = n + 0x8000 + 256 * x.toNat + 16 * y.toNat := by
  rw [toNat_encodeXYN (by decide) x y hn]
  omega

/-- The natural-number form of a byte difference; adding 256 first keeps the subtraction from being cut off at 0. -/
theorem toNat_byte_sub (a b : Byte) : (a - b).toNat = (a.toNat + 256 - b.toNat) % 256 := by
  have hb := b.isLt
  rw [BitVec.toNat_sub]
  omega

theorem toNat_byte_shiftRight_one (a : Byte) : (a >>> 1).toNat = a.toNat / 2 := by
  rw [BitVec.toNat_ushiftRight, Nat.shiftRight_eq_div_pow, Nat.pow_one]

theorem toNat_byte_shiftLeft_one (a : Byte) : (a <<< 1).toNat = 2 * a.toNat % 256 := by
  rw [BitVec.toNat_shiftLeft, Nat.shiftLeft_eq, Nat.pow_one, Nat.mul_comm]

/-! ## What a register write and the two orders of result and flag leave (42_register_alu.md R131) -/

section RegisterWrites

variable (x : Nibble) (r f : Byte) (s : State)

theorem setV_frame : UnchangedExcept [.v] s (s.setV x r) :=
  (UnchangedExcept.refl _ s).setV (.head _) x r

theorem resultThenFlag_frame : UnchangedExcept [.v] s (resultThenFlag x r f s) :=
  (setV_frame x r s).setV (.head _) vf f

theorem flagThenResult_frame : UnchangedExcept [.v] s (flagThenResult x f r s) :=
  (setV_frame vf f s).setV (.head _) x r

theorem resultThenFlag_flag : (resultThenFlag x r f s).getV 15 = f := by
  rw [getV_resultThenFlag, if_pos rfl]

theorem flagThenResult_result : (flagThenResult x f r s).getV x = r := by
  rw [getV_flagThenResult, if_pos rfl]

variable {x}

theorem resultThenFlag_result (hx : x ≠ 15) : (resultThenFlag x r f s).getV x = r := by
  rw [getV_resultThenFlag, if_neg hx, if_pos rfl]

theorem flagThenResult_flag (hx : x ≠ 15) : (flagThenResult x f r s).getV 15 = f := by
  rw [getV_flagThenResult, if_neg hx.symm, if_pos rfl]

end RegisterWrites

/-- What the statements on 8xy5, 8xy6, 8xy7 and 8xyE say of their instruction, for its result and flag as numbers. -/
theorem exec_of_flagThenResult {i : Instr} {x : Nibble} {f r : Byte} {s : State} {result flag : Nat}
    (h : exec i s = .next (flagThenResult x f r s)) (hi : i.destinations = [x, 15]) (hr : r.toNat = result)
    (hf : f.toNat = flag) :
    ∃ t, exec i s = .next t ∧ (t.getV x).toNat = result ∧ (x ≠ 15 → (t.getV 15).toNat = flag) ∧
      RegsUnchangedExcept [x, 15] s t ∧ UnchangedExcept [.v] s t := by
  refine ⟨_, h, ?_, fun hx => ?_, hi ▸ exec_keeps_registers h, flagThenResult_frame x r f s⟩
  · rw [flagThenResult_result, hr]
  · rw [flagThenResult_flag r f s hx, hf]

/-! ## Arithmetic (R138, R139, R141) -/

/-- Settles O22: the carry is written last, so it stands in VF even where VF is the destination. -/
theorem addRegistersSetsCarry : Obligations.AddRegistersSetsCarry := by
  intro x y s
  refine ⟨decodesTo_of_toNat_encodeWord (toNat_encodeXYN_family8 x y (by decide)), _, rfl, ?_, fun hx => ?_,
    exec_keeps_registers (i := .addReg x y) rfl, resultThenFlag_frame x _ _ s⟩
  · rw [resultThenFlag_flag, toNat_carryFlag]
  · rw [resultThenFlag_result _ _ s hx, BitVec.toNat_add]

/-- Settles O23: both forms write `greaterFlag` of their operands, then the difference. -/
theorem subtractionsSetStrictFlag : Obligations.SubtractionsSetStrictFlag := by
  intro x y s
  refine ⟨?_, ?_, ?_, ?_⟩
  · exact decodesTo_of_toNat_encodeWord (toNat_encodeXYN_family8 x y (by decide))
  · exact decodesTo_of_toNat_encodeWord (toNat_encodeXYN_family8 x y (by decide))
  · exact exec_of_flagThenResult rfl rfl (toNat_byte_sub _ _) (toNat_greaterFlag _ _)
  · exact exec_of_flagThenResult rfl rfl (toNat_byte_sub _ _) (toNat_greaterFlag _ _)

/-! ## The shifts (R140, R142) -/

/-- Settles O24: the bit that the shift drops is written first, then the shifted byte; neither depends on y. -/
theorem shiftsIgnoreVyAndKeepTheLostBit : Obligations.ShiftsIgnoreVyAndKeepTheLostBit := by
  intro x y s
  refine ⟨?_, ?_, ?_, ?_⟩
  · exact decodesTo_of_toNat_encodeWord (toNat_encodeXYN_family8 x y (by decide))
  · exact decodesTo_of_toNat_encodeWord (toNat_encodeXYN_family8 x y (by decide))
  · exact exec_of_flagThenResult rfl rfl (toNat_byte_shiftRight_one _) (toNat_lowBitFlag _)
  · exact exec_of_flagThenResult rfl rfl (toNat_byte_shiftLeft_one _) (toNat_highBitFlag _)

/-! ## The random byte (R143) -/

/-- Settles O25: the mask law holds of whatever byte is drawn. -/
theorem randomByteIsMaskedByNn : Obligations.RandomByteIsMaskedByNn := by
  intro x nn s
  have hvalue : ((rndWith (Config.rnd s.draws) x nn s).setDraws (s.draws + 1)).getV x = Config.rnd s.draws &&& nn := by
    rw [State.getV_setDraws, rndWith, State.getV_setV_same]
  refine ⟨decodesTo_of_toNat_encodeWord (toNat_encodeXNN (by decide) x nn.isLt), _, rfl, hvalue, rfl, fun k hk => ?_,
    exec_keeps_registers (i := .rnd x nn) rfl, ?_⟩
  · rw [hvalue, BitVec.getLsbD_and, hk, Bool.and_false]
  · exact ((UnchangedExcept.refl _ s).setV (.head _) x _).setDraws (.tail _ (.head _)) _

/-! ## The loads and the immediate addition (R132, R133, R134) -/

/-- Settles O19: each is one register write. -/
theorem loadsWriteTheirDestination : Obligations.LoadsWriteTheirDestination := by
  intro x y nn s
  refine ⟨?_, ?_, ?_, ?_⟩
  · exact decodesTo_of_toNat_encodeWord (toNat_encodeXNN (by decide) x nn.isLt)
  · exact decodesTo_of_toNat_encodeWord (toNat_encodeXYN (by decide) x y (by decide))
  · exact ⟨_, rfl, fun j => State.getV_setV s x j nn, setV_frame x nn s⟩
  · exact ⟨_, rfl, fun j => State.getV_setV s x j (s.getV y), setV_frame x _ s⟩

/-- Settles O20: one register write, of the 8-bit sum. -/
theorem addImmediateWrapsWithoutFlag : Obligations.AddImmediateWrapsWithoutFlag := by
  intro x nn s
  refine ⟨decodesTo_of_toNat_encodeWord (toNat_encodeXNN (by decide) x nn.isLt), _, rfl, ?_,
    exec_keeps_registers (i := .addImm x nn) rfl, setV_frame x _ s⟩
  rw [State.getV_setV_same, BitVec.toNat_add]

/-! ## The logic (R135, R136, R137) -/

/-- Settles O21: each form writes its result, then the flag 0. -/
theorem logicForcesVfToZero : Obligations.LogicForcesVfToZero := by
  intro x y s
  refine ⟨?_, ?_, ?_, ?_, ?_, ?_⟩
  · exact decodesTo_of_toNat_encodeWord (toNat_encodeXYN_family8 x y (by decide))
  · exact decodesTo_of_toNat_encodeWord (toNat_encodeXYN_family8 x y (by decide))
  · exact decodesTo_of_toNat_encodeWord (toNat_encodeXYN_family8 x y (by decide))
  · exact ⟨_, rfl, resultThenFlag_frame x _ 0 s, getV_resultThenFlag x _ 0 s⟩
  · exact ⟨_, rfl, resultThenFlag_frame x _ 0 s, getV_resultThenFlag x _ 0 s⟩
  · exact ⟨_, rfl, resultThenFlag_frame x _ 0 s, getV_resultThenFlag x _ 0 s⟩

end Sys2Proof
end

section
/-! The index-register and memory instructions: BCD (O27), the register block stores and loads (O28, O29), the writes of I
(O26). -/

namespace Sys2Proof.Machine

/-! ## The addressing law, and the bytes and registers of a block -/

section Blocks

variable {s : State} {n : Nat}

/-- The addressing law with the highest address `I + n` inside memory (43_index_memory.md R150). -/
theorem accessFault_succ_of_le (h : s.i.toNat + n ≤ 4095) : accessFault (n + 1) s = none :=
  accessFault_none (Nat.succ_le_succ h)

/-- The addressing law with the highest address `I + n` outside memory: the record names it unreduced (R150). -/
theorem accessFault_succ_of_lt (h : 4095 < s.i.toNat + n) :
    accessFault (n + 1) s = some (.dataOutOfBounds (s.pc - 2) (s.i.toNat + n)) := by
  rw [accessFault_eq]
  exact if_pos ⟨Nat.succ_pos n, h⟩

theorem Memory.read_writeBytes_inside {m : Memory} {a k : Nat} {bs : List Byte} (h : k < bs.length) :
    (m.writeBytes a bs).read (a + k) = bs.getD k 0 := by
  rw [Memory.read_writeBytes, if_pos (by omega), Nat.add_sub_cancel_left]

theorem getV_setVs_fillRegs (bs : List Byte) (s : State) (j : Nibble) :
    (s.setVs (fillRegs 0 bs s.v)).getV j = if j.toNat < bs.length then bs.getD j.toNat 0 else s.getV j := by
  rw [State.getV, State.setVs_v, getElem_fillRegs, Nat.zero_add, Nat.sub_zero, State.getV]
  simp only [Nat.zero_le, true_and]

/-- Each number stored is below 256, so the byte that stores it keeps it whole (R154). -/
theorem toNat_read_writeBytes_bcdDigits (m : Memory) (a : Nat) (v : Byte) :
    ((m.writeBytes a (bcdDigits v)).read a).toNat = v.toNat / 100 ∧
      ((m.writeBytes a (bcdDigits v)).read (a + 1)).toNat = v.toNat / 10 % 10 ∧
      ((m.writeBytes a (bcdDigits v)).read (a + 2)).toNat = v.toNat % 10 := by
  have hv := v.isLt
  have hread (k : Nat) (hk : k < 3) : (m.writeBytes a (bcdDigits v)).read (a + k) = (bcdDigits v).getD k 0 :=
    Memory.read_writeBytes_inside hk
  refine ⟨?_, ?_, ?_⟩
  · rw [show (m.writeBytes a (bcdDigits v)).read a = _ from hread 0 (by decide)]
    exact Nat.mod_eq_of_lt (by omega)
  · rw [hread 1 (by decide)]
    exact Nat.mod_eq_of_lt (by omega)
  · rw [hread 2 (by decide)]
    exact Nat.mod_eq_of_lt (by omega)

end Blocks

/-- Five times a byte is below 65536, so the 16-bit product of Fx29 does not wrap (R153). -/
theorem toNat_zextByte_mul_five (b : Byte) : (zextByte b * 5).toNat = b.toNat * 5 := by
  have hb := b.isLt
  rw [BitVec.toNat_mul, toNat_zextByte]
  exact Nat.mod_eq_of_lt (show b.toNat * 5 < 65536 by omega)

end Sys2Proof.Machine

namespace Sys2Proof

open Machine

/-! ## The words of format XSS, and what a write of memory and of I leaves -/

theorem toNat_encodeXNN_subopcode {op nn : Nat} (hop : op < 16) (x : Nibble) (hnn : nn < 256) :
    (encodeXNN op x nn).toNat = op * 4096 + nn + 256 * x.toNat := by
  rw [toNat_encodeXNN hop x hnn, Nat.add_right_comm]

theorem setMem_frame (m : Memory) (s : State) : UnchangedExcept [.mem] s (s.setMem m) :=
  (UnchangedExcept.refl _ s).setMem (.head _) m

theorem setI_frame (w : Word) (s : State) : UnchangedExcept [.i] s (s.setI w) :=
  (UnchangedExcept.refl _ s).setI (.head _) w

/-! ## Fx33 (R154) -/

/-- Settles O27: a block write of the three digits, or the fault of the addressing law with the highest address I + 2. -/
theorem bcdStoresThreeDigits : Obligations.BcdStoresThreeDigits := by
  intro x s
  refine ⟨decodesTo_of_toNat_encodeWord (toNat_encodeXNN_subopcode (by decide) x (by decide)), fun hin => ?_,
    fun hout => ?_⟩
  · have hexec := execLdB_of_no_fault x (accessFault_succ_of_le hin)
    obtain ⟨hhundreds, htens, hunits⟩ := toNat_read_writeBytes_bcdDigits s.mem s.i.toNat (s.getV x)
    exact ⟨_, hexec, hhundreds, htens, hunits, fun a => exec_keeps_memory (i := .ldB x) hexec, setMem_frame _ s⟩
  · exact exec_latches_of_raise (execLdB_of_fault x (accessFault_succ_of_lt hout))

/-! ## Fx55 and Fx65 (R155, R156) -/

/-- Settles O28: a block write of V0 to Vx, or the fault of the addressing law with the highest address I + x. -/
theorem storeRegistersWritesV0ToVx : Obligations.StoreRegistersWritesV0ToVx := by
  intro x s
  refine ⟨decodesTo_of_toNat_encodeWord (toNat_encodeXNN_subopcode (by decide) x (by decide)), fun hin => ?_,
    fun hout => ?_⟩
  · have hexec := execLdMemVx_of_no_fault (accessFault_succ_of_le hin)
    refine ⟨_, hexec, fun j hj => ?_, fun a => exec_keeps_memory (i := .ldMemVx x) hexec, setMem_frame _ s⟩
    have hinside : j.toNat < (regsUpTo x s).length := by
      rw [length_regsUpTo]
      exact Nat.lt_succ_of_le hj
    rw [State.setMem_mem, Memory.read_writeBytes_inside hinside, getD_regsUpTo x j s hj]
  · exact exec_latches_of_raise (execLdMemVx_of_fault (accessFault_succ_of_lt hout))

/-- Settles O29: a fill of V0 to Vx from the block at I, or the fault of the addressing law with the highest address I + x. -/
theorem loadRegistersReadsV0ToVx : Obligations.LoadRegistersReadsV0ToVx := by
  intro x s
  refine ⟨decodesTo_of_toNat_encodeWord (toNat_encodeXNN_subopcode (by decide) x (by decide)), fun hin => ?_,
    fun hout => ?_⟩
  · refine ⟨_, execLdVxMem_of_no_fault (accessFault_succ_of_le hin), fun j => ?_,
      (UnchangedExcept.refl _ s).setVs (.head _) _⟩
    rw [getV_setVs_fillRegs, Memory.length_readBytes]
    by_cases hj : j.toNat ≤ x.toNat
    · rw [if_pos hj, if_pos (Nat.lt_succ_of_le hj), Memory.getD_readBytes _ _ _ _ (Nat.lt_succ_of_le hj)]
    · rw [if_neg hj, if_neg (mt Nat.le_of_lt_succ hj)]
  · exact exec_latches_of_raise (execLdVxMem_of_fault (accessFault_succ_of_lt hout))

/-! ## The writes of I (R151, R152, R153) -/

/-- Settles O26: each is one write of I, of the operand, of a sum that wraps at 16 bits or of a product that cannot. -/
theorem indexWritesComputeI : Obligations.IndexWritesComputeI := by
  intro x nnn s
  refine ⟨?_, ?_, ?_, ?_, ?_, ?_⟩
  · exact decodesTo_of_toNat_encodeWord (toNat_encodeNNN (by decide) nnn)
  · exact decodesTo_of_toNat_encodeWord (toNat_encodeXNN_subopcode (by decide) x (by decide))
  · exact decodesTo_of_toNat_encodeWord (toNat_encodeXNN_subopcode (by decide) x (by decide))
  · exact ⟨_, rfl, toNat_zextAddr nnn, setI_frame _ s⟩
  · refine ⟨_, rfl, ?_, setI_frame _ s⟩
    rw [State.setI_i, BitVec.toNat_add, toNat_zextByte]
  · exact ⟨_, rfl, toNat_zextByte_mul_five (s.getV x), setI_frame _ s⟩

end Sys2Proof
end

section
/-! The display instructions: 00E0 (O30), Dxyn (O31), two equal draws (O32, O33), and DISP in its canonical form under a step
(O55). -/

namespace Sys2Proof.Machine

/-! ## The addressing law for a count that may be 0 (43_index_memory.md R150) -/

section AddressingLaw

variable {s : State} {k : Nat}

/-- An access of no byte completes wherever I points. -/
theorem accessFault_of_completes (h : k = 0 ∨ s.i.toNat + k - 1 ≤ 4095) : accessFault k s = none := by
  rw [accessFault_eq, if_neg]
  rintro ⟨hone, hout⟩
  omega

theorem accessFault_of_outside (hone : 1 ≤ k) (hout : 4095 < s.i.toNat + k - 1) :
    accessFault k s = some (.dataOutOfBounds (s.pc - 2) (s.i.toNat + k - 1)) :=
  if_pos ⟨hone, hout⟩

end AddressingLaw

/-! ## The draw as a symmetric difference (44_display.md R172) -/

section DrawSprite

variable (ox oy : Byte) (rows : List Byte) (d : Display)

theorem lit_drawSprite_iff (p : Pixel) :
    (drawSprite ox oy rows d).1.lit p = true ↔ ¬ (d.lit p = true ↔ p ∈ spritePixels ox.toNat oy.toNat rows) := by
  rw [drawSprite, (drawPixels_spec _ (nodup_spritePixels _ _ _) d false).1, bne_iff_ne, ne_eq, Bool.eq_iff_iff,
    decide_eq_true_iff]

theorem drawSprite_hit_iff :
    (drawSprite ox oy rows d).2 = true ↔ ∃ p ∈ spritePixels ox.toNat oy.toNat rows, d.lit p = true := by
  rw [drawSprite, (drawPixels_spec _ (nodup_spritePixels _ _ _) d false).2]
  simp only [Bool.false_eq_true, false_or]

end DrawSprite

end Sys2Proof.Machine

namespace Sys2Proof

open Machine

/-! ## The cells of the sprite (R172) -/

section Sprite

variable {x y n : Nibble} {s u : State}

/-- The statements' set of cells is the list that the draw goes through. -/
theorem mem_spritePixels_iff_inSprite (p : Pixel) :
    p ∈ spritePixels (s.getV x).toNat (s.getV y).toNat (s.mem.readBytes s.i.toNat n.toNat) ↔ InSprite x y n s p := by
  rw [mem_spritePixels, Memory.length_readBytes]
  refine exists_congr fun row => exists_congr fun col => and_congr_right fun hrow => ?_
  rw [Memory.getD_readBytes _ _ _ _ hrow]

/-- The sprite's cells depend on I, the sprite's bytes and the origin alone. -/
theorem inSprite_congr (hi : u.i = s.i) (hx : u.getV x = s.getV x) (hy : u.getV y = s.getV y)
    (hrows : ∀ row, row < n.toNat → u.mem.read (s.i.toNat + row) = s.mem.read (s.i.toNat + row)) (p : Pixel) :
    InSprite x y n u p ↔ InSprite x y n s p := by
  refine exists_congr fun row => exists_congr fun col => and_congr_right fun hrow => ?_
  rw [hi, hx, hy, hrows row hrow]

end Sprite

/-! ## A completed draw (R171) -/

/-- The state that a completed Dxyn answers; `exec_drw_of_completes` ties it to the model. -/
def afterDraw (x y n : Nibble) (s : State) : State :=
  let drawn := drawSprite (s.getV x) (s.getV y) (s.mem.readBytes s.i.toNat n.toNat) s.disp
  (s.setDisp drawn.1).setV vf (flagByte drawn.2)

section AfterDraw

variable {x y n : Nibble} {s : State}

theorem exec_drw_of_completes (h : n.toNat = 0 ∨ s.i.toNat + n.toNat - 1 ≤ 4095) :
    exec (.drw x y n) s = .next (afterDraw x y n s) :=
  execDrw_of_no_fault x y (accessFault_of_completes h)

theorem lit_afterDraw_iff (p : Pixel) :
    (afterDraw x y n s).disp.lit p = true ↔ ¬ (s.disp.lit p = true ↔ InSprite x y n s p) := by
  rw [← mem_spritePixels_iff_inSprite]
  exact lit_drawSprite_iff _ _ _ _ p

/-- VF is the flag byte of the collision. -/
theorem afterDraw_flag :
    (afterDraw x y n s).getV 15 =
      flagByte (drawSprite (s.getV x) (s.getV y) (s.mem.readBytes s.i.toNat n.toNat) s.disp).2 :=
  State.getV_setV_same _ vf _

theorem draw_hit_iff :
    (drawSprite (s.getV x) (s.getV y) (s.mem.readBytes s.i.toNat n.toNat) s.disp).2 = true ↔
      ∃ p, InSprite x y n s p ∧ s.disp.lit p = true := by
  rw [drawSprite_hit_iff]
  exact exists_congr fun p => and_congr_left fun _ => mem_spritePixels_iff_inSprite p

theorem afterDraw_flag_of_hit (h : ∃ p, InSprite x y n s p ∧ s.disp.lit p = true) : (afterDraw x y n s).getV 15 = 1 := by
  rw [afterDraw_flag, draw_hit_iff.2 h]
  rfl

theorem afterDraw_flag_of_no_hit (h : ¬ ∃ p, InSprite x y n s p ∧ s.disp.lit p = true) :
    (afterDraw x y n s).getV 15 = 0 := by
  rw [afterDraw_flag, Bool.eq_false_iff.2 (mt draw_hit_iff.1 h)]
  rfl

theorem afterDraw_frame : UnchangedExcept [.v, .disp] s (afterDraw x y n s) :=
  ((UnchangedExcept.refl _ s).setDisp (.tail _ (.head _)) _).setV (.head _) vf _

end AfterDraw

/-- Settles O55: 00E0 and Dxyn alone write DISP, and a sprite reaches at most column 255 + 7 and row 255 + 14. -/
theorem stepKeepsDisplayCanonical : Obligations.StepKeepsDisplayCanonical :=
  fun _ _ => step_keeps_displayCanonical

/-- Settles O31: the completed draw flips each cell of the sprite once, or the addressing law raises the fault. -/
theorem drawTogglesTheSpriteCells : Obligations.DrawTogglesTheSpriteCells := by
  intro x y n s
  refine ⟨decodesTo_of_toNat_encodeWord ?_, fun hin => ?_, fun hone hout => ?_⟩
  · rw [encodeWord, toNat_encodeXYN (by decide) x y n.isLt]
  · have hexec := exec_drw_of_completes (x := x) (y := y) hin
    exact ⟨_, hexec, lit_afterDraw_iff, afterDraw_flag_of_hit, afterDraw_flag_of_no_hit, drw_keeps_registers hexec,
      afterDraw_frame⟩
  · exact exec_latches_of_raise (execDrw_of_fault x y (accessFault_of_outside hone hout))

/-! ## Two equal draws (R172, log entry 16) -/

section SecondDraw

variable {x y n : Nibble} {s u : State}

/-- Where the first draw's display and the sprite still stand, the second draw erases what the first one drew. -/
theorem lit_second_afterDraw (hdisp : u.disp = (afterDraw x y n s).disp)
    (hsprite : ∀ p, InSprite x y n u p ↔ InSprite x y n s p) (p : Pixel) :
    (afterDraw x y n u).disp.lit p = s.disp.lit p := by
  rw [Bool.eq_iff_iff, lit_afterDraw_iff, hdisp, lit_afterDraw_iff, hsprite]
  tauto

/-- The second draw meets a lit cell exactly where the first one met an unlit cell. -/
theorem second_draw_hit_iff (hdisp : u.disp = (afterDraw x y n s).disp)
    (hsprite : ∀ p, InSprite x y n u p ↔ InSprite x y n s p) :
    (∃ p, InSprite x y n u p ∧ u.disp.lit p = true) ↔ ∃ p, InSprite x y n s p ∧ s.disp.lit p = false := by
  refine exists_congr fun p => ?_
  rw [hdisp, hsprite, lit_afterDraw_iff, ← Bool.not_eq_true]
  tauto

end SecondDraw

/-- Settles O32: the symmetric difference with the same cells twice is the display from before, and the second draw collides in
the cells that the first one lit. -/
theorem drawingTwiceErases : Obligations.DrawingTwiceErases := by
  intro x y n s t u hin hfirst hdisp hi hx hy hrows
  obtain rfl : afterDraw x y n s = t := by simpa [exec_drw_of_completes hin] using hfirst
  have hsprite := inSprite_congr hi hx hy hrows
  have hhit := second_draw_hit_iff hdisp hsprite
  exact ⟨_, exec_drw_of_completes (hi ▸ hin), lit_second_afterDraw hdisp hsprite,
    fun hunlit => afterDraw_flag_of_hit (hhit.2 hunlit), fun hlit => afterDraw_flag_of_no_hit (mt hhit.1 hlit)⟩

/-- Refutes O33: a sprite of the one cell (0, 0), drawn twice where that cell is lit; the first draw erases it, so the second
meets no lit cell and leaves VF 0. -/
theorem not_secondDrawOfANonEmptySpriteCollides : ¬ Obligations.SecondDrawOfANonEmptySpriteCollides := by
  intro h
  have hcollides := h 0 0 1 ((State.reset.setMem [(0, 0x80)]).setDisp [(0, 0)]) _ _ _ (.inr (by decide)) rfl rfl rfl rfl rfl
    (fun _ _ => rfl) rfl ⟨(0, 0), 0, 0, by decide, by decide, by decide, by decide⟩
  exact absurd hcollides (by decide)

/-! ## 00E0 (R170) -/

/-- Settles O30: the empty list of cells, and no other element written. -/
theorem clearEmptiesTheDisplay : Obligations.ClearEmptiesTheDisplay :=
  ⟨decodesTo_of_toNat_encodeWord rfl,
    fun s => ⟨_, rfl, Display.lit_nil, (UnchangedExcept.refl _ s).setDisp (.head _) []⟩⟩

end Sys2Proof
end

section
/-! The keypad and timer instructions: the wait for a key (O35), the key skips (O34), the timer moves (O36). -/

namespace Sys2Proof

open Machine

/-! ## The key latch (10_state.md R30), and what a timer write leaves -/

section Keys

variable {s : State} {keys : Word} {k : Byte}

theorem keyDown_iff : keyDown keys k = true ↔ k.toNat < 16 ∧ keys.getLsbD k.toNat = true := by
  rw [keyDown_eq, Bool.and_eq_true, decide_eq_true_iff]

theorem skipIf_keyDown_pc :
    (skipIf (keyDown keys k) s).pc = if k.toNat < 16 ∧ keys.getLsbD k.toNat = true then s.pc + 2 else s.pc := by
  simp only [skipIf_pc, keyDown_iff]

theorem skipIf_not_keyDown_pc :
    (skipIf (!keyDown keys k) s).pc = if k.toNat < 16 ∧ keys.getLsbD k.toNat = true then s.pc else s.pc + 2 := by
  simp only [skipIf_pc, Bool.not_eq_true', ← Bool.not_eq_true, keyDown_iff, ite_not]

/-- With a key down Fx0A writes a pressed key, whichever member KEY_SELECT gives (45_keys_timers.md R182). -/
theorem execLdVxK_writes_pressed_key (x : Nibble) (h : s.keys ≠ 0) :
    ∃ k n, keyDown s.keys k = true ∧ execLdVxK x s = .next ((s.setV x k).setDraws n) := by
  have hdown (k : Byte) : k ∈ pressedKeys s.keys → keyDown s.keys k = true := (mem_pressedKeys s.keys k).1
  match hpressed : pressedKeys s.keys with
  | [] => exact absurd ((pressedKeys_eq_nil _).1 hpressed) h
  | [k] => exact ⟨k, s.draws, hdown k (hpressed ▸ .head _), execLdVxK_of_one_key x hpressed⟩
  | k :: l :: ks => exact ⟨_, _, hdown _ (hpressed ▸ chooseKey_mem _ k (l :: ks)), execLdVxK_of_keys x hpressed⟩

end Keys

theorem setDt_frame (b : Byte) (s : State) : UnchangedExcept [.dt] s (s.setDt b) :=
  (UnchangedExcept.refl _ s).setDt (.head _) b

theorem setSt_frame (b : Byte) (s : State) : UnchangedExcept [.st] s (s.setSt b) :=
  (UnchangedExcept.refl _ s).setSt (.head _) b

/-! ## The wait for a key (R182) -/

/-- Settles O35: with no key down PC alone is written; with keys down the register receives a pressed key, for every choice. -/
theorem keyWaitRetriesOrReportsAPressedKey : Obligations.KeyWaitRetriesOrReportsAPressedKey := by
  intro x s
  refine ⟨decodesTo_of_toNat_encodeWord (toNat_encodeXNN_subopcode (by decide) x (by decide)), fun hnone => ?_,
    fun hsome => ?_⟩
  · exact ⟨_, execLdVxK_of_no_key x ((pressedKeys_eq_nil _).2 hnone), rfl,
      (UnchangedExcept.refl _ s).setPc (.head _) _⟩
  · obtain ⟨k, n, hdown, hexec⟩ := execLdVxK_writes_pressed_key x hsome
    have hvalue : ((s.setV x k).setDraws n).getV x = k := by
      rw [State.getV_setDraws, State.getV_setV_same]
    obtain ⟨hcode, hpressed⟩ := keyDown_iff.1 hdown
    refine ⟨_, hexec, ?_, ?_, ldVxK_keeps_registers hexec, ?_⟩
    · rwa [hvalue]
    · rwa [hvalue]
    · exact ((UnchangedExcept.refl _ s).setV (.head _) x k).setDraws (.tail _ (.head _)) n

/-! ## The key skips (R180, R181) -/

/-- Settles O34: both forms are `skipIf` on the latch bit of Vx, which no code above 0xF has. -/
theorem keySkipsTestTheLatch : Obligations.KeySkipsTestTheLatch := by
  intro x s
  refine ⟨?_, ?_, ?_, ?_⟩
  · exact decodesTo_of_toNat_encodeWord (toNat_encodeXNN_subopcode (by decide) x (by decide))
  · exact decodesTo_of_toNat_encodeWord (toNat_encodeXNN_subopcode (by decide) x (by decide))
  · exact ⟨_, rfl, skipIf_frame _ s, skipIf_keyDown_pc⟩
  · exact ⟨_, rfl, skipIf_frame _ s, skipIf_not_keyDown_pc⟩

/-! ## The timer moves (R183, R184, R185) -/

/-- Settles O36: each is one write, of a register or of a timer. -/
theorem timerInstructionsMoveTimerValues : Obligations.TimerInstructionsMoveTimerValues := by
  intro x s
  refine ⟨?_, ?_, ?_, ?_, ?_, ?_⟩
  · exact decodesTo_of_toNat_encodeWord (toNat_encodeXNN_subopcode (by decide) x (by decide))
  · exact decodesTo_of_toNat_encodeWord (toNat_encodeXNN_subopcode (by decide) x (by decide))
  · exact decodesTo_of_toNat_encodeWord (toNat_encodeXNN_subopcode (by decide) x (by decide))
  · exact ⟨_, rfl, fun j => State.getV_setV s x j s.dt, setV_frame x s.dt s⟩
  · exact ⟨_, rfl, rfl, setDt_frame _ s⟩
  · exact ⟨_, rfl, rfl, setSt_frame _ s⟩

end Sys2Proof
end

section
/-! Exceptions: the conditions under which a step of a running core latches a fault (O38), and what such a step leaves (O39). -/

namespace Sys2Proof

open Machine

/-! ## The raise (60_exceptions.md R208) -/

section Raise

variable {s t : State} {f g : Fault}

theorem fault_of_next_eq_raise (h : .next t = raise f s) : t.fault = some f := by
  cases h
  rfl

/-- What is raised in a state is read off its latch. -/
theorem raise_injective (h : raise f s = raise g s) : f = g :=
  Option.some.inj (fault_of_next_eq_raise h)

end Raise

/-! ## Why an instruction raises (R201, R203, R204) -/

section Instructions

variable {i : Instr} {s t : State} {f : Fault}

/-- The addressing law is tested before anything else (43_index_memory.md R150). -/
theorem exec_of_accessFault (h : accessFault i.accessCount s = some f) : exec i s = raise f s := by
  cases i with
  | drw x y n => exact execDrw_of_fault x y h
  | ldB x => exact execLdB_of_fault x h
  | ldMemVx x => exact execLdMemVx_of_fault h
  | ldVxMem x => exact execLdVxMem_of_fault h
  | _ =>
    have hnone : accessFault 0 s = none := accessFault_of_completes (.inl rfl)
    cases hnone.symm.trans h

/-- Beside 00EE and 2nnn, the two that write STACK, only the addressing law makes an instruction write the latch. -/
theorem exec_keeps_fault (hstack : Part.stack ∉ i.writes) (haccess : accessFault i.accessCount s = none)
    (h : exec i s = .next t) : t.fault = s.fault := by
  cases i with
  | ret | call => simp [Instr.writes] at hstack
  | drw x y n =>
    cases (execDrw_of_no_fault x y haccess).symm.trans h
    rfl
  | ldB x =>
    cases (execLdB_of_no_fault x haccess).symm.trans h
    rfl
  | ldMemVx x =>
    cases (execLdMemVx_of_no_fault haccess).symm.trans h
    rfl
  | ldVxMem x =>
    cases (execLdVxMem_of_no_fault haccess).symm.trans h
    rfl
  | ldVxK x =>
    obtain ⟨u, hu, hframe⟩ := ldVxK_writesOnly s x
    cases hu.symm.trans h
    exact hframe .fault (Instr.fault_notMem_writes _)
  | seImm | sneImm | seReg | sneReg | skp | sknp =>
    cases h
    exact skipIf_frame _ s .fault (by decide)
  | _ =>
    cases h
    rfl

theorem ret_raises (hs : s.fault = none) (h : exec .ret s = raise f s) :
    s.stack = [] ∧ f = .stackUnderflow (pc0 s) := by
  cases hstack : s.stack with
  | nil => exact ⟨rfl, raise_injective (h.symm.trans (execRet_of_nil hstack))⟩
  | cons top rest =>
    have hlatched := fault_of_next_eq_raise ((execRet_of_cons hstack).symm.trans h)
    simp [hs] at hlatched

theorem call_raises {nnn : Addr12} (hs : s.fault = none) (h : exec (.call nnn) s = raise f s) :
    s.stackLimit = some s.stack.length ∧ f = .stackOverflow (pc0 s) := by
  by_cases hfull : s.stackLimit = some s.stack.length
  · exact ⟨hfull, raise_injective (h.symm.trans (execCall_of_full nnn hfull))⟩
  · have hlatched := fault_of_next_eq_raise ((execCall_of_not_full nnn hfull).symm.trans h)
    simp [hs] at hlatched

/-- What an instruction raised, with its condition: 00EE on an empty STACK, 2nnn on a full one, the addressing law. -/
theorem raise_cases (hs : s.fault = none) (h : exec i s = raise f s) :
    (i = .ret ∧ s.stack = [] ∧ f = .stackUnderflow (pc0 s)) ∨
    (∃ nnn, i = .call nnn ∧ s.stackLimit = some s.stack.length ∧ f = .stackOverflow (pc0 s)) ∨
    accessFault i.accessCount s = some f := by
  by_cases hstack : Part.stack ∈ i.writes
  · obtain rfl | ⟨nnn, rfl⟩ := Instr.stack_mem_writes hstack
    · exact .inl ⟨rfl, ret_raises hs h⟩
    · exact .inr (.inl ⟨nnn, rfl, call_raises hs h⟩)
  · cases haccess : accessFault i.accessCount s with
    | some g => exact .inr (.inr (congrArg some (raise_injective ((exec_of_accessFault haccess).symm.trans h))))
    | none =>
      have hkept : some f = s.fault := exec_keeps_fault hstack haccess h
      simp [hs] at hkept

theorem accessFault_eq_some {k : Nat} (h : accessFault k s = some f) :
    1 ≤ k ∧ 4095 < s.i.toNat + k - 1 ∧ f = .dataOutOfBounds (pc0 s) (s.i.toNat + k - 1) := by
  rw [accessFault_eq] at h
  split at h
  · next hout =>
    obtain ⟨hone, habove⟩ := hout
    exact ⟨hone, habove, (Option.some.inj h).symm⟩
  · cases h

end Instructions

/-! ## A step that faults (R202, R208) -/

section Step

variable {s t : State} {f : Fault}

theorem fetch_error_cases (h : fetch s = .error f) : 0xFFE < s.pc.toNat ∧ f = .fetchOutOfBounds s.pc := by
  by_cases hpc : 0xFFE < s.pc.toNat
  · rw [fetch_error hpc] at h
    exact ⟨hpc, (Except.error.inj h).symm⟩
  · rw [fetch_ok (Nat.not_lt.1 hpc)] at h
    cases h

/-- A fault that a step of a running core leaves is the fetch's, latched with PC as it was, or one that the instruction at PC
raised, latched with PC advanced. -/
theorem Running.faulting_step_cases (hrun : Running s) (h : step s = .next t) (hf : t.fault = some f) :
    (0xFFE < s.pc.toNat ∧ f = .fetchOutOfBounds s.pc ∧ t = (closeBootWindow s).setFault (some f)) ∨
    (∃ i, AtInstr i s ∧ exec i (advance (closeBootWindow s)) = raise f (advance (closeBootWindow s)) ∧
      t = (advance (closeBootWindow s)).setFault (some f)) := by
  have hclear : s.fault ≠ some f := by simp [hrun.1]
  obtain ⟨hhalted, _⟩ | ⟨_, g, hfetch, rfl⟩ | ⟨_, w, e, _, _, rfl⟩ | ⟨_, w, i, hw, hi, hexec⟩ := step_cases h
  · simp [hrun.not_halted] at hhalted
  · cases hf
    obtain ⟨hpc, hinfo⟩ := fetch_error_cases hfetch
    exact .inl ⟨hpc, hinfo, rfl⟩
  · exact absurd hf hclear
  · obtain hframe | ⟨g, rfl⟩ := exec_cases hexec
    · exact absurd ((hframe .fault i.fault_notMem_writes).symm.trans hf) hclear
    · cases hf
      exact .inr ⟨i, atInstr_of_fetch hw hi, hexec, rfl⟩

end Step

/-- Settles O38: the fault is the fetch's or has one of the three conditions of `raise_cases`, whose PC0 is the PC before the
advance. -/
theorem faultsOccurOnlyAsListed : Obligations.FaultsOccurOnlyAsListed := by
  intro s t f hrun h hf
  have hpc0 : pc0 (advance (closeBootWindow s)) = s.pc := pc0_advance (closeBootWindow s)
  obtain ⟨hpc, hinfo, _⟩ | ⟨i, hi, hraise, _⟩ := hrun.faulting_step_cases h hf
  · exact .inl ⟨hpc, hinfo⟩
  · right
    obtain ⟨rfl, hempty, hinfo⟩ | ⟨nnn, rfl, hfull, hinfo⟩ | haccess :=
      raise_cases (s := advance (closeBootWindow s)) hrun.1 hraise
    · exact .inl ⟨hi, hempty, hpc0 ▸ hinfo⟩
    · exact .inr (.inl ⟨nnn, hi, hfull, hpc0 ▸ hinfo⟩)
    · obtain ⟨hone, hout, hinfo⟩ := accessFault_eq_some haccess
      exact .inr (.inr ⟨i, hi, hone, hout, hpc0 ▸ hinfo⟩)

/-- Settles O39: the two forms of a faulting step write the mark and the latch, and the second the advanced PC. -/
theorem faultsArePrecise : Obligations.FaultsArePrecise := by
  intro s t hrun h hfault
  obtain ⟨f, hf⟩ := Option.ne_none_iff_exists'.1 hfault
  have hclosed : UnchangedExcept [.fault, .pc, .hasRun] s (closeBootWindow s) :=
    (UnchangedExcept.refl _ s).setHasRun (.tail _ (.tail _ (.head _))) true
  obtain ⟨hpc, _, rfl⟩ | ⟨i, hi, _, rfl⟩ := hrun.faulting_step_cases h hf
  · refine ⟨hclosed.setFault (.head _) _, ?_⟩
    rw [if_pos hpc]
    rfl
  · refine ⟨(hclosed.setPc (.tail _ (.head _)) _).setFault (.head _) _, ?_⟩
    rw [if_neg (Nat.not_lt.2 hi.1)]
    exact advance_pc (s := closeBootWindow s) hi.1

end Sys2Proof
end

section
/-! Self-modifying code (O43), the loads (O49, O50), the boot window (O51), and the words that the spec lists (O5). -/

namespace Sys2Proof.Machine

/-- A block write puts the k-th byte at the k-th address from its start. -/
theorem Memory.read_writeBytes_getElem (m : Memory) (a : Nat) {bytes : List Byte} {k : Nat} (h : k < bytes.length) :
    (m.writeBytes a bytes).read (a + k) = bytes[k] := by
  rw [Memory.read_writeBytes_inside h, List.getD_eq_getElem _ _ h]

end Sys2Proof.Machine

namespace Sys2Proof

open Machine

/-! ## Stores over the next instruction (70_reset_and_hazards.md R241) -/

section NextStep

variable {x j : Nibble} {s t : State} {e : DecodeReject}

/-- A core of which a store wrote memory alone still runs. -/
theorem Running.of_store (hrun : Running s) (h : UnchangedExcept [.mem] s t) : Running t := by
  obtain ⟨hfault, hplaying⟩ := hrun
  exact ⟨Eq.trans (h .fault (by decide)) hfault, Eq.trans (h .run (by decide)) hplaying⟩

/-- The register after Vj, where Vj is not the last register of a block. -/
theorem toNat_nibble_add_one (h : j.toNat < x.toNat) : (j + 1).toNat = j.toNat + 1 := by
  have hx := x.isLt
  rw [BitVec.toNat_add]
  exact Nat.mod_eq_of_lt (show j.toNat + 1 < 16 by omega)

/-- The three digits of Fx33 as one rule: the k-th has weight 10 ^ (2 - k) (43_index_memory.md R154). -/
theorem exists_ldB_stores_digits (x : Nibble) (h : s.i.toNat + 2 ≤ 4095) :
    ∃ t, exec (.ldB x) s = .next t ∧ UnchangedExcept [.mem] s t ∧
      ∀ k, k ≤ 2 → (t.mem.read (s.i.toNat + k)).toNat = (s.getV x).toNat / 10 ^ (2 - k) % 10 := by
  have hv := (s.getV x).isLt
  obtain ⟨-, hstore, -⟩ := bcdStoresThreeDigits x s
  obtain ⟨t, hexec, hhundreds, htens, hunits, -, hframe⟩ := hstore h
  refine ⟨t, hexec, hframe, fun k hk => ?_⟩
  obtain rfl | rfl | rfl : k = 0 ∨ k = 1 ∨ k = 2 := by omega
  · exact hhundreds.trans (Nat.mod_eq_of_lt (show (s.getV x).toNat / 100 < 10 by omega)).symm
  · exact htens
  · simpa using hunits

/-- Two bytes that are decimal digits make a word of family 0 that is neither 00E0 nor 00EE (30_encoding.md R76). -/
theorem exists_decode_digits_eq_error {hi lo : Byte} (hhi : hi.toNat < 10) (hlo : lo.toNat < 10) :
    ∃ e, decode [hi, lo] = .error e := by
  have hword := toNat_wordOfBytes hi lo
  have htable : InUnrecognisedTable (wordOfBytes hi lo) := .inl ⟨by omega, by omega, by omega⟩
  obtain ⟨e, he⟩ := decodeWord_error_iff.2 htable
  exact ⟨e, decode_pair_eq_error_iff.2 he⟩

theorem atUnrecognised_of_decode_error (hpc : s.pc.toNat ≤ 0xFFE)
    (h : decode [s.mem.read s.pc.toNat, s.mem.read (s.pc.toNat + 1)] = .error e) : AtUnrecognised s := by
  obtain rfl := decodeWord_error (decode_pair_eq_error_iff.1 h)
  exact ⟨hpc, _, h⟩

end NextStep

/-- Settles O43: the store leaves the core running with PC on the stored bytes, which are two registers, or two digits and so no
instruction. -/
theorem nextStepRunsTheStoredBytes : Obligations.NextStepRunsTheStoredBytes := by
  intro x s hrun
  refine ⟨fun j hj hat hin => ?_, fun k hk hat hin => ?_⟩
  · have hle : s.pc.toNat ≤ 0xFFE := by omega
    have hnext := toNat_nibble_add_one hj
    obtain ⟨-, hstore, -⟩ := storeRegistersWritesV0ToVx x s
    obtain ⟨t, hexec, hregs, -, hframe⟩ := hstore hin
    have hpc : t.pc = s.pc := hframe .pc (by decide)
    have hhi := hregs j (Nat.le_of_lt hj)
    have hlo := hregs (j + 1) (hnext ▸ hj)
    rw [hnext, ← Nat.add_assoc] at hlo
    rw [hat, ← hpc] at hhi hlo
    rw [← hpc] at hle ⊢
    refine ⟨t, hexec, ?_⟩
    rw [← hhi, ← hlo]
    exact ⟨fun i hi => step_of_atInstr (hrun.of_store hframe) ⟨hle, hi⟩,
      fun e he => step_of_atUnrecognised (hrun.of_store hframe) (atUnrecognised_of_decode_error hle he)⟩
  · have hle : s.pc.toNat ≤ 0xFFE := by omega
    obtain ⟨t, hexec, hframe, hdigits⟩ := exists_ldB_stores_digits x hin
    have hpc : t.pc = s.pc := hframe .pc (by decide)
    have hhi := hdigits k (Nat.le_of_lt hk)
    have hlo := hdigits (k + 1) hk
    rw [← Nat.add_assoc, Nat.succ_sub_succ] at hlo
    rw [hat, ← hpc] at hhi hlo
    rw [← hpc] at hle ⊢
    obtain ⟨e, he⟩ := exists_decode_digits_eq_error (hhi ▸ Nat.mod_lt _ (by decide)) (hlo ▸ Nat.mod_lt _ (by decide))
    exact ⟨t, hexec, hhi, hlo,
      step_of_atUnrecognised (hrun.of_store hframe) (atUnrecognised_of_decode_error hle he)⟩

/-! ## The loads (R231, R232) -/

/-- Settles O49: in the boot window the load is a block write of the table at 0x000. -/
theorem loadFontWritesTheGlyphTable : Obligations.LoadFontWritesTheGlyphTable := by
  intro font s hwindow hf
  refine ⟨_, loadFont_eq font hf hwindow, fun k hk => ?_, fun a ha => ?_, setMem_frame _ s⟩
  · have hread := Memory.read_writeBytes_getElem s.mem 0 (bytes := font.toList) (k := k) (by simpa using hk)
    rwa [Nat.zero_add, Vector.getElem_toList] at hread
  · exact Memory.read_writeBytes_outside (.inr (by simpa using ha))

/-- Settles O50: in the boot window the load is a block write of the program at 0x200, or the refusal of its length. -/
theorem loadProgramWritesOrRefuses : Obligations.LoadProgramWritesOrRefuses := by
  intro bytes s hwindow hf
  refine ⟨fun hlen => ?_, fun hlen => ?_⟩
  · exact ⟨_, loadProgram_eq hlen hf hwindow, fun k hk => Memory.read_writeBytes_getElem s.mem 0x200 hk,
      fun a ha => Memory.read_writeBytes_outside ha, setMem_frame _ s⟩
  · exact loadProgram_of_too_long ((loadRefusal_eq_none s).2 ⟨hf, hwindow⟩) (Nat.not_le.2 hlen)

/-! ## The boot window (R234) -/

section BootWindow

variable {s t : State}

/-- With the boot window closed a load is turned away, whatever the state of the latch. -/
theorem exists_loadRefusal_of_hasRun (h : s.hasRun = true) : ∃ r, loadRefusal s = some r := by
  refine Option.ne_none_iff_exists'.1 fun hnone => ?_
  obtain ⟨-, hopen⟩ := (loadRefusal_eq_none s).1 hnone
  simp [h] at hopen

/-- `initialize` alone opens the boot window again. -/
theorem perform_keeps_hasRun {op : Operation} (hs : s.hasRun = true) (hop : op ≠ .initialise)
    (h : perform op s = .next t) : t.hasRun = true := by
  obtain ⟨r, hr⟩ := exists_loadRefusal_of_hasRun hs
  cases op with
  | initialise => exact absurd rfl hop
  | loadFont font => simp [perform, loadFont_of_refusal font hr] at h
  | loadProgram bytes => simp [perform, loadProgram_of_refusal bytes hr] at h
  | step keys => exact step_hasRun h
  | cycle keys => exact cycle_hasRun h
  | togglePause =>
    cases h
    obtain ⟨r', hr'⟩ := exists_togglePause_eq_setRun s
    rw [hr']
    exact hs

end BootWindow

/-- Settles O51: a step and a cycle set the mark that the loads test, and `initialize` alone clears it. -/
theorem loadsAreRefusedAfterTheFirstStep : Obligations.LoadsAreRefusedAfterTheFirstStep := by
  refine ⟨fun s t h => h.elim step_hasRun cycle_hasRun, fun op s t => perform_keeps_hasRun, fun s hs => ?_, fun s => ?_⟩
  · obtain ⟨r, hr⟩ := exists_loadRefusal_of_hasRun hs
    exact ⟨fun font => ⟨r, loadFont_of_refusal font hr⟩, fun bytes => ⟨r, loadProgram_of_refusal bytes hr⟩⟩
  · obtain ⟨-, hreset⟩ := initializeGivesTheResetState s
    obtain ⟨hmem, hv, hi, hpc, hstack, hdt, hst, hdisp, hrun, hfault⟩ := hreset _ (.inl rfl)
    exact ⟨initialise s, rfl, hmem, hv, hi, hpc, hstack, hdt, hst, hdisp, hrun, hfault,
      fun font => ⟨_, loadFont_eq font hfault rfl⟩, fun bytes hlen => ⟨_, loadProgram_eq hlen hfault rfl⟩⟩

/-! ## Words that the spec lists -/

/-- Settles O5: each word is the encoding of the instruction it stands for. -/
theorem specWordsDecodeAsListed : Obligations.SpecWordsDecodeAsListed :=
  ⟨decodeEncodeRoundTrip .cls [], decodeEncodeRoundTrip .ret [], decodeEncodeRoundTrip (.seReg 1 2) [],
    decodeEncodeRoundTrip (.subn 1 2) [], decodeEncodeRoundTrip (.skp 1) [], decodeEncodeRoundTrip (.ldVxMem 1) [],
    decodeEncodeRoundTrip (.drw 0 1 5) [], decodeEncodeRoundTrip (.ldImm 1 0x0A) [], decodeEncodeRoundTrip (.jp 0x200) []⟩

end Sys2Proof
end
